-- ==== Sys2Proof/Word.lean ====
section
/-! DEFINITION. Word.lean: the values of the MEU.
An operand value is a natural number (00_scope R10, R11: exact arithmetic, no wrap-around), so it is a `Nat`, not a
bit vector, and that it is below `2^W` is `Params.fits`; a command is a 32-bit word (30_encoding R60); a register is
named by an index 0 to 7 (10_state R20). -/

namespace Sys2Proof

/-- A command word, bit 31 most significant (00_scope R9, 30_encoding R60). -/
abbrev CmdWord := BitVec 32

/-- An operand register's index, `NREG = 8` (00_scope R7, 10_state R20). -/
abbrev RegIdx := Fin 8

end Sys2Proof
end

