-- ==== Sys2Proof/Syntax.lean ====
section
/-! DEFINITION. Syntax.lean: the instructions, one constructor for each row of spec/opcode_table.json.
Fields stand in the order of the command word (30_encoding R61, R62). ENCRYPT and DECRYPT are assembler names of
MODEXP's words (R72): they are constructors because the table lists them, and no word decodes to them (DESIGN CHOICE,
log entry 11). -/

namespace Sys2Proof

/-- An instruction of the MEU (30_encoding R63, R72). -/
inductive Instr where
  /-- MODEXP: `x[rd] <- x[rs1] ^ x[rs2] mod x[rs3]` (40_modexp R80). -/
  | modexp (rs1 rs2 rs3 rd : RegIdx)
  /-- MODINV: `x[rd] <-` the inverse of `x[rs1]` modulo `x[rs2]` (41_modinv_gcd R90). -/
  | modinv (rs1 rs2 rd : RegIdx)
  /-- GCD: `x[rd] <- gcd(x[rs1], x[rs2])` (41_modinv_gcd R94). -/
  | gcd (rs1 rs2 rd : RegIdx)
  /-- PRIMETEST: Fermat test of `x[rs1]`, `iter` trials of `sbits` random bits (42_primetest R100). -/
  | primetest (rs1 : RegIdx) (iter : BitVec 8) (sbits : BitVec 15)
  /-- FACTOR: `x[rd], x[rd2] <-` a factor pair of `x[rs1]` (43_factor R110). -/
  | factor (rs1 rd rd2 : RegIdx)
  /-- ENCRYPT: `rs1` message, `rs2` public exponent, `rs3` modulus, `rd` ciphertext (30_encoding R72). -/
  | encrypt (rs1 rs2 rs3 rd : RegIdx)
  /-- DECRYPT: `rs1` ciphertext, `rs2` private exponent, `rs3` modulus, `rd` message (30_encoding R72). -/
  | decrypt (rs1 rs2 rs3 rd : RegIdx)
  deriving DecidableEq, Repr

end Sys2Proof
end

