-- ==== Sys2Proof/WellFormed.lean ====
section
/-! DEFINITION. WellFormed.lean: the checks an instruction must pass to have a command word.
The widths of register numbers and immediates are in the types of Syntax.lean; the one check left is FACTOR's. -/

namespace Sys2Proof

/-- FACTOR needs two different destinations (30_encoding R67); every other form is well formed (R61, R62). -/
def Instr.wellFormed : Instr → Bool
  | .modexp _ _ _ _ => true
  | .modinv _ _ _ => true
  | .gcd _ _ _ => true
  | .primetest _ _ _ => true
  | .factor _ rd rd2 => decide (rd ≠ rd2)
  | .encrypt _ _ _ _ => true
  | .decrypt _ _ _ _ => true

end Sys2Proof
end

