-- ==== Sys2Proof/Decode.lean ====
section
/-! DEFINITION. Decode.lean: the decoder of 30_encoding R64, total on all 2^32 words and rejecting by name, then the
encoder, written from the same two formats (R61, R62), and the mask and match words of the opcode map (R63). -/

namespace Sys2Proof

/-- Why a word is ILLEGAL (30_encoding R66). -/
inductive IllegalWord where
  /-- Opcode 0 or 6 to 63. -/
  | unassignedOpcode
  /-- An assigned opcode with a field its operation does not use, or `zero`, not 0 (R65). -/
  | unusedFieldNotZero
  /-- FACTOR with `rd = rd2` (R67). -/
  | factorSameDestination
  deriving DecidableEq, Repr

/-! ## The fields of a word (30_encoding R61, R62) -/

/-- `w[31:26]`. -/
def opcodeOf (w : CmdWord) : BitVec 6 := w.extractLsb' 26 6
/-- `w[25:23]`, the same bits in both formats. -/
def rs1Of (w : CmdWord) : RegIdx := (w.extractLsb' 23 3).toFin
/-- `w[22:20]`. -/
def rs2Of (w : CmdWord) : RegIdx := (w.extractLsb' 20 3).toFin
/-- `w[19:17]`. -/
def rs3Of (w : CmdWord) : RegIdx := (w.extractLsb' 17 3).toFin
/-- `w[16:14]`. -/
def rdOf (w : CmdWord) : RegIdx := (w.extractLsb' 14 3).toFin
/-- `w[13:11]`. -/
def rd2Of (w : CmdWord) : RegIdx := (w.extractLsb' 11 3).toFin
/-- `w[10:0]`. -/
def zeroOf (w : CmdWord) : BitVec 11 := w.extractLsb' 0 11
/-- `w[22:15]` of the P-format. -/
def iterOf (w : CmdWord) : BitVec 8 := w.extractLsb' 15 8
/-- `w[14:0]` of the P-format. -/
def sbitsOf (w : CmdWord) : BitVec 15 := w.extractLsb' 0 15

/-! ## The opcodes (30_encoding R63) -/

def opModexp : BitVec 6 := 1
def opModinv : BitVec 6 := 2
def opGcd : BitVec 6 := 3
def opPrimetest : BitVec 6 := 4
def opFactor : BitVec 6 := 5

/-! ## Decoding (30_encoding R64) -/

/-- `decode(w)` of R64: the instruction, or the name of what makes the word ILLEGAL. -/
def decode (w : CmdWord) : Except IllegalWord Instr :=
  if opcodeOf w = opModexp then
    if rd2Of w = 0 ∧ zeroOf w = 0 then .ok (.modexp (rs1Of w) (rs2Of w) (rs3Of w) (rdOf w))
    else .error .unusedFieldNotZero
  else if opcodeOf w = opModinv then
    if rs3Of w = 0 ∧ rd2Of w = 0 ∧ zeroOf w = 0 then .ok (.modinv (rs1Of w) (rs2Of w) (rdOf w))
    else .error .unusedFieldNotZero
  else if opcodeOf w = opGcd then
    if rs3Of w = 0 ∧ rd2Of w = 0 ∧ zeroOf w = 0 then .ok (.gcd (rs1Of w) (rs2Of w) (rdOf w))
    else .error .unusedFieldNotZero
  else if opcodeOf w = opPrimetest then
    .ok (.primetest (rs1Of w) (iterOf w) (sbitsOf w))
  else if opcodeOf w = opFactor then
    if rs2Of w = 0 ∧ rs3Of w = 0 ∧ zeroOf w = 0 then
      if rdOf w = rd2Of w then .error .factorSameDestination
      else .ok (.factor (rs1Of w) (rdOf w) (rd2Of w))
    else .error .unusedFieldNotZero
  else .error .unassignedOpcode

/-- The instruction the decoder reads from a word whose low `nbits` bits are `w`'s and whose other bits are 0
(the numbering of spec/opcode_table.json is the spec's own: one 32-bit word, bit 0 least significant, R9, R60). -/
def decodeTableWord (nbits w : Nat) : Option Instr :=
  (decode (BitVec.ofNat 32 (w % 2 ^ nbits))).toOption

/-! ## Encoding (30_encoding R61, R62) -/

/-- An R-format word (R61). -/
def rFormat (op : BitVec 6) (rs1 rs2 rs3 rd rd2 : RegIdx) : CmdWord :=
  (op ++ (BitVec.ofFin rs1 : BitVec 3) ++ (BitVec.ofFin rs2 : BitVec 3) ++ (BitVec.ofFin rs3 : BitVec 3)
    ++ (BitVec.ofFin rd : BitVec 3) ++ (BitVec.ofFin rd2 : BitVec 3) ++ 0#11).cast rfl

/-- A P-format word (R62). -/
def pFormat (op : BitVec 6) (rs1 : RegIdx) (iter : BitVec 8) (sbits : BitVec 15) : CmdWord :=
  (op ++ (BitVec.ofFin rs1 : BitVec 3) ++ iter ++ sbits).cast rfl

/-- The command word of an instruction; ENCRYPT and DECRYPT assemble to MODEXP's (R72). -/
def encode : Instr → CmdWord
  | .modexp rs1 rs2 rs3 rd => rFormat opModexp rs1 rs2 rs3 rd 0
  | .modinv rs1 rs2 rd => rFormat opModinv rs1 rs2 0 rd 0
  | .gcd rs1 rs2 rd => rFormat opGcd rs1 rs2 0 rd 0
  | .primetest rs1 iter sbits => pFormat opPrimetest rs1 iter sbits
  | .factor rs1 rd rd2 => rFormat opFactor rs1 0 0 rd rd2
  | .encrypt rs1 rs2 rs3 rd => rFormat opModexp rs1 rs2 rs3 rd 0
  | .decrypt rs1 rs2 rs3 rd => rFormat opModexp rs1 rs2 rs3 rd 0

/-- The pseudo-instructions' expansion (R72); a core instruction is its own. -/
def Instr.core : Instr → Instr
  | .modexp rs1 rs2 rs3 rd => .modexp rs1 rs2 rs3 rd
  | .modinv rs1 rs2 rd => .modinv rs1 rs2 rd
  | .gcd rs1 rs2 rd => .gcd rs1 rs2 rd
  | .primetest rs1 iter sbits => .primetest rs1 iter sbits
  | .factor rs1 rd rd2 => .factor rs1 rd rd2
  | .encrypt rs1 rs2 rs3 rd => .modexp rs1 rs2 rs3 rd
  | .decrypt rs1 rs2 rs3 rd => .modexp rs1 rs2 rs3 rd

/-! ## The opcode map's mask and match words (30_encoding R63) -/

/-- The `mask` column of R63. -/
def Instr.maskWord : Instr → CmdWord
  | .modexp _ _ _ _ => 0xFC003FFF
  | .modinv _ _ _ => 0xFC0E3FFF
  | .gcd _ _ _ => 0xFC0E3FFF
  | .primetest _ _ _ => 0xFC000000
  | .factor _ _ _ => 0xFC7E07FF
  | .encrypt _ _ _ _ => 0xFC003FFF
  | .decrypt _ _ _ _ => 0xFC003FFF

/-- The `match` column of R63. -/
def Instr.matchWord : Instr → CmdWord
  | .modexp _ _ _ _ => 0x04000000
  | .modinv _ _ _ => 0x08000000
  | .gcd _ _ _ => 0x0C000000
  | .primetest _ _ _ => 0x10000000
  | .factor _ _ _ => 0x14000000
  | .encrypt _ _ _ _ => 0x04000000
  | .decrypt _ _ _ _ => 0x04000000

end Sys2Proof
end

