-- ==== Sys2Proof/Machine/Arith.lean ====
section
/-! DEFINITION. Machine/Arith.lean: the integer functions of the five operations, all exact (00_scope R11).
Loops that the spec writes with `while` are counted by an argument that bounds their turns; R169 and R115 say
how many turns each needs, and Sys2Proof/Laws/Arith.lean proves what they return (DEDUCED, log entry 16). -/

namespace Sys2Proof.Machine

/-- `bitlen(v)` (00_scope R11). -/
def bitlen (v : Nat) : Nat := if v = 0 then 0 else Nat.log2 v + 1

/-- `|a - b|` on naturals (00_scope R11; 43_factor R112). -/
def absDiff (a b : Nat) : Nat := if a < b then b - a else a - b

/-! ## Modular exponentiation (40_modexp R81, R82) -/

/-- The square-and-multiply loop of 40_modexp R82, least significant bit first, one turn for each bit of `e`. -/
def modexpLoop (m : Nat) : (turns : Nat) → (r s e : Nat) → Nat
  | 0, r, _, _ => r
  | turns + 1, r, s, e =>
    modexpLoop m turns (if e % 2 = 1 then (r * s) % m else r) ((s * s) % m) (e / 2)

/-- `MODEXPVAL(b, e, m)` for `m >= 1`: the value of 40_modexp R81, reached as R82 says. The special case
`b mod m = 0` gives 0 for every `e`, also `e = 0` (90_conflicts C1; log entry 8). -/
def modexpVal (b e m : Nat) : Nat :=
  if b % m = 0 then 0 else modexpLoop m (bitlen e) 1 (b % m) e

/-! ## Greatest common divisor (41_modinv_gcd R93, R95) -/

/-- `gcd(a, b)` (41_modinv_gcd R93). -/
def gcdVal (a b : Nat) : Nat := Nat.gcd a b

/-- The loop of 41_modinv_gcd R95, at most `turns` turns. -/
def gcdLoop : (turns : Nat) → (a b : Nat) → Nat
  | 0, a, _ => a
  | turns + 1, a, b => if b = 0 then a else gcdLoop turns b (a % b)

/-- The iterative form of gcd that hardware uses (41_modinv_gcd R95), its operands swapped first if `a < b`. -/
def gcdMethod (a b : Nat) : Nat := if a < b then gcdLoop a b a else gcdLoop b a b

/-! ## Modular inverse (41_modinv_gcd R91, R92) -/

/-- The iterative extended Euclid of 41_modinv_gcd R92, at most `turns` turns; `t0`, `t1` are its signed
intermediates (00_scope R10). The result is the final `(r0, t0)`. -/
def inverseLoop : (turns : Nat) → (r0 r1 : Nat) → (t0 t1 : Int) → Nat × Int
  | 0, r0, _, t0, _ => (r0, t0)
  | turns + 1, r0, r1, t0, t1 =>
    if r1 = 0 then (r0, t0)
    else inverseLoop turns r1 (r0 - (r0 / r1) * r1) t1 (t0 - (r0 / r1 : Nat) * t1)

/-- `t0 mod m`, "normalized into [0, m)" (41_modinv_gcd R92), for `m >= 1`. The MEU promises it only when
`gcd(a, m) = 1` (R91). -/
def inverseVal (a m : Nat) : Nat :=
  ((inverseLoop m m (a % m) 0 1).2 % (m : Int)).toNat

/-! ## The Fermat test (42_primetest R101, R102) -/

/-- The witness of a draw, `(r mod (n - 1)) + 1` (42_primetest R102, 90_conflicts C2), for `n >= 2`. -/
def witness (n r : Nat) : Nat := r % (n - 1) + 1

/-- The Fermat check `MODEXPVAL(a, n - 1, n) == 1` (42_primetest R101). -/
def fermatPasses (n a : Nat) : Bool := modexpVal a (n - 1) n == 1

/-! ## Pollard's rho (43_factor R112, R113) -/

/-- `f(c, n, t) = (t * t + c) mod n` (43_factor R113). -/
def rhoNext (c n t : Nat) : Nat := (t * t + c) % n

/-- How the walk of one attempt ends (43_factor R112). -/
inductive WalkEnd where
  /-- `1 < d < n`. -/
  | found (d : Nat)
  /-- `d = n`. -/
  | collapsed
  /-- The rounds allowed were used up; with `n` rounds this does not happen (43_factor R115). -/
  | unfinished
  deriving DecidableEq, Repr

/-- The rounds of one attempt from the pointers `slow` and `fast`: slow advances once, fast by two separate
applications of `f`, then `d = gcd(|slow - fast|, n)` (43_factor R112). -/
def rhoWalk (n c : Nat) : (rounds : Nat) → (slow fast : Nat) → WalkEnd
  | 0, _, _ => .unfinished
  | rounds + 1, slow, fast =>
    let slow' := rhoNext c n slow
    let fast' := rhoNext c n (rhoNext c n fast)
    let d := gcdVal (absDiff slow' fast') n
    if 1 < d ∧ d < n then .found d
    else if d = n then .collapsed
    else rhoWalk n c rounds slow' fast'

end Sys2Proof.Machine
end

