-- ==== Sys2Proof/Config.lean ====
section
/-! DEFINITION. Config.lean: the parameters of the step relation (00_scope R7, R13) and the free values.
Every constant of one chip is `opaque`: no proof can see its value, so a theorem about the machine holds for
every width, every attempt bound, every sequence of entropy answers and every unspecified value. The meanings
take a `Params`, so that a test can run them on draws of its own; the machine runs them on `Config.chip`. -/

namespace Sys2Proof

/-- What is fixed for one MEU, and what its surroundings answer (00_scope R7, R13). -/
structure Params where
  /-- `none`: registers are unbounded; `some k`: `W = k + 1` (R7: `W >= 1`, or `W = unbounded`). -/
  widthPred : Option Nat
  /-- `RHO_MAX_ATTEMPTS - 1` (R7: `>= 1`). -/
  rhoPred : Nat
  /-- The entropy port's raw answer to its `k`-th request: `none` is `fail`, `some v` is reduced to the request's
  range (20_memory R46 to R48). -/
  entropyAnswer : Nat → Option Nat
  /-- The `k`-th unspecified value (93_implementation_defined U1, U2). -/
  unspecifiedValue : Nat → Nat

/-- PRESENT BUT OPEN: the operand width (92_eei_decisions D3). Log entry 5. -/
opaque Config.widthPred : Option Nat

/-- PRESENT BUT OPEN: the bound on rho attempts (92_eei_decisions D17). Log entry 6. -/
opaque Config.rhoPred : Nat

/-- FREE VALUE: the entropy port's answers, one for each request ever made (93_implementation_defined U3, U4).
Log entry 3. -/
opaque Config.entropyAnswer : Nat → Option Nat

/-- FREE VALUE: the values the spec leaves unspecified, one for each draw (93_implementation_defined U1, U2).
Log entry 4. -/
opaque Config.unspecifiedValue : Nat → Nat

/-- The parameters of the machine this model is of. -/
def Config.chip : Params :=
  { widthPred := Config.widthPred
    rhoPred := Config.rhoPred
    entropyAnswer := Config.entropyAnswer
    unspecifiedValue := Config.unspecifiedValue }

/-- `ITER_DEFAULT`: the trial count the assembler fills in (00_scope R7, 30_encoding R71). -/
def Config.iterDefault : Nat := 30

end Sys2Proof
end

