-- ==== Sys2Proof/Machine/State.lean ====
section
/-! DEFINITION. Machine/State.lean: the state of the MEU as plain data, and what stands around it.
The spec's own state is `(x[0..7], STATUS.ERR, STATUS.PRIME)` (10_state R32). The four other fields are the
model's: the host's script and what it was answered, and two positions in free sequences. -/

namespace Sys2Proof.Machine

/-- The five transactions of the host port (20_memory R41). -/
inductive HostOp where
  /-- `WriteReg(i, v)` (R42). -/
  | writeReg (i : RegIdx) (v : Nat)
  /-- `ReadReg(i)` (R43). -/
  | readReg (i : RegIdx)
  /-- `ReadStatus()` (R44). -/
  | readStatus
  /-- `Issue(w)` (R45): `w` is written to CMD, which holds nothing (10_state R29). -/
  | issue (w : CmdWord)
  /-- `Reset()` (70_reset R160). -/
  | reset
  deriving DecidableEq, Repr

/-- What a reading transaction returns to the host (20_memory R43, R44). -/
inductive Reply where
  | value (i : RegIdx) (v : Nat)
  | status (w : BitVec 32)
  deriving DecidableEq, Repr

/-- The four errors a command can end with (60_exceptions R140). -/
inductive ErrKind where
  | entropySourceUnavailable
  | invalidModulus
  | illegalCommand
  | operandRange
  deriving DecidableEq, Repr

/-- Reasons the model stops. The MEU's own errors are none of these: they go to STATUS.ERR and the MEU goes on. -/
inductive Fault where
  /-- Raised by the step of `WriteReg(i, v)` for a `v` of more than `W` bits, which cannot be presented to the
  port (20_memory R42, 92_eei_decisions D40). Safe: there is no such transaction, so the model only stops (DESIGN
  CHOICE, log entry 13). -/
  | valueNotPresentable
  deriving DecidableEq, Repr

/-- Instructions without a meaning. -/
inductive Refusal where
  /-- Raised by exec's arm of an instruction that is not modelled yet; no arm of this model raises it. Safe. -/
  | notModelled (mnemonic : String)
  deriving DecidableEq, Repr

/-- The machine's state. -/
structure State where
  /-- The operand registers `x[0]` to `x[7]` (10_state R20). -/
  x : Vector Nat 8
  /-- `STATUS.ERR`, STATUS[3:0] (10_state R26, R27). -/
  err : BitVec 4
  /-- `STATUS.PRIME`, STATUS[4] (10_state R26, R28). -/
  prime : Bool
  /-- The model's: the host's transactions still to come, next one first (30_encoding R73). Log entry 2. -/
  pending : List HostOp
  /-- The model's: what the host's reads returned, newest first (20_memory R43, R44). Log entry 2. -/
  replies : List Reply
  /-- The model's: how many entropy requests were made (20_memory R49). Log entry 3. -/
  entropyReqs : Nat
  /-- The model's: how many unspecified values were drawn (93_implementation_defined U1, U2). Log entry 4. -/
  freeDraws : Nat
  deriving DecidableEq, Repr

/-- The machine right after reset (10_state R33): `ERR` and `PRIME` 0. DESIGN CHOICE: the registers, which the spec
leaves unspecified, hold 0 (log entry 1, unsafe); nothing is pending (log entry 2). -/
def State.reset : State :=
  { x := Vector.replicate 8 0
    err := 0
    prime := false
    pending := []
    replies := []
    entropyReqs := 0
    freeDraws := 0 }

end Sys2Proof.Machine
end

