-- ==== Sys2Proof/Machine/Ops.lean ====
section
/-! DEFINITION. Machine/Ops.lean: the named operations every meaning is made of: values of `W` bits, operand
registers, ending a command (normally, or with an error: the one shared exception entry), the entropy port, and
unspecified values. -/

namespace Sys2Proof

/-! ## Values of `W` bits (00_scope R7, R10) -/

/-- `W`: `none` for unbounded (00_scope R7). -/
def Params.width (P : Params) : Option Nat :=
  P.widthPred.map (· + 1)

/-- `RHO_MAX_ATTEMPTS`, the total number of attempts (00_scope R7, 92_eei_decisions D17). -/
def Params.rhoMaxAttempts (P : Params) : Nat :=
  P.rhoPred + 1

/-- `v < 2^W`: the value can stand in an operand register (00_scope R10). -/
def Params.fits (P : Params) (v : Nat) : Bool :=
  match P.width with
  | none => true
  | some w => decide (v < 2 ^ w)

/-- A value that fits, whatever `v` is, and `v` itself when it fits: how a free value is kept to `W` bits. -/
def Params.clip (P : Params) (v : Nat) : Nat :=
  match P.width with
  | none => v
  | some w => v % 2 ^ w

end Sys2Proof

namespace Sys2Proof.Machine

/-! ## Operand registers (00_scope R12) -/

/-- Read `x[i]`: every register is an ordinary one, none is hardwired (10_state R22). -/
def State.getReg (s : State) (i : RegIdx) : Nat := s.x[i]

/-- `x[i] <- v` (00_scope R12). -/
def State.setReg (s : State) (i : RegIdx) (v : Nat) : State := { s with x := s.x.set i v }

/-! ## How a command ends (60_exceptions R140, R146) -/

/-- The code of an error (60_exceptions R140). -/
def ErrKind.code : ErrKind → BitVec 4
  | .entropySourceUnavailable => 1
  | .invalidModulus => 2
  | .illegalCommand => 3
  | .operandRange => 4

/-- `raise <Error>` (60_exceptions R146): `STATUS.ERR` takes the code; no register, no flag, nothing else is
written, and there is no handler to go to. Nothing undoes it: there is no return from an error (R147). -/
def State.raise (s : State) (k : ErrKind) : State := { s with err := k.code }

/-- `complete` (00_scope R12): `STATUS.ERR <- 0`. -/
def State.complete (s : State) : State := { s with err := 0 }

/-- The IllegalCommand a word that decodes to ILLEGAL raises (30_encoding R66, 60_exceptions R143). -/
def State.illegalCommand (s : State) : State := s.raise .illegalCommand

/-! ## The entropy port (20_memory R46 to R49)

Request number `q` (counted over the whole run) gets the answer `P.entropyAnswer q`: a free value, kept to the
range of the request. `none` is `fail`. -/

/-- `RandBits(k)`: `0 <= r < 2^k` or `fail` (20_memory R46). -/
def randBits (P : Params) (k q : Nat) : Option Nat :=
  (P.entropyAnswer q).map (· % 2 ^ k)

/-- `RandRange(lo, hi)`, `lo <= hi`: `lo <= v <= hi` or `fail` (20_memory R47). -/
def randRange (P : Params) (lo hi q : Nat) : Option Nat :=
  (P.entropyAnswer q).map fun v => lo + v % (hi - lo + 1)

/-- The entropy port has been given requests up to number `q` (20_memory R49). -/
def State.afterRequests (s : State) (q : Nat) : State := { s with entropyReqs := q }

/-! ## Unspecified values (93_implementation_defined U1, U2) -/

/-- The next unspecified value, and the state in which it has been drawn. -/
def State.drawFree (P : Params) (s : State) : Nat × State :=
  (P.unspecifiedValue s.freeDraws, { s with freeDraws := s.freeDraws + 1 })

/-- Write `v` to `x[i]`; a `v` that does not fit `W` bits leaves an unspecified `W`-bit value instead. DESIGN
CHOICE (log entry 10): the spec has every written value fit (00_scope R11), which fails at one point only,
FACTOR's `p = 2` for `n = 0` when `W = 1`. -/
def State.setRegFitted (P : Params) (s : State) (i : RegIdx) (v : Nat) : State :=
  if P.fits v then s.setReg i v
  else (s.drawFree P).2.setReg i (P.clip (s.drawFree P).1)

end Sys2Proof.Machine
end

