-- ==== Sys2Proof/Machine/Flags.lean ====
section
/-! DEFINITION. Machine/Flags.lean: the STATUS register (10_state R26 to R28). -/

namespace Sys2Proof.Machine

/-- `STATUS.PRIME <- b`, the MEU's only flag (10_state R28). -/
def State.setPrime (s : State) (b : Bool) : State := { s with prime := b }

/-- The STATUS word: `ERR` in bits 3:0, `PRIME` in bit 4, bits 31:5 zero (10_state R26, 20_memory R44). -/
def State.statusWord (s : State) : BitVec 32 := (0#27 ++ BitVec.ofBool s.prime ++ s.err).cast rfl

end Sys2Proof.Machine
end

