-- ==== Sys2Proof/Machine/Operands.lean ====
section
/-! DEFINITION. Machine/Operands.lean: the operand forms of a command (30_encoding R61, R62, R69).
A source is an operand register, read once at the start of the command (10_state R34, 70_reset R163); a destination
is an operand register, written by `State.setReg` at its end; the two immediates are plain unsigned fields. -/

namespace Sys2Proof.Machine

/-- A register source: the register's value at the start of the command (10_state R34). -/
def State.source (s : State) (i : RegIdx) : Nat := s.getReg i

/-- `iter`: the number of trials, literally, 0 meaning none (30_encoding R69). -/
def trialCount (iter : BitVec 8) : Nat := iter.toNat

/-- `sbits`: the number of random bits of a trial, literally (30_encoding R69). -/
def sampleBits (sbits : BitVec 15) : Nat := sbits.toNat

end Sys2Proof.Machine
end

