-- ==== Sys2Proof/Machine/Euclid.lean ====
section
/-! DEFINITION. Machine/Euclid.lean: MODINV and GCD (41_modinv_gcd). -/

namespace Sys2Proof.Machine

/-- MODINV's effect (41_modinv_gcd R91): the sentinel 0 for `m = 0`; the inverse when `gcd(a, m) = 1`; otherwise
an UNSPECIFIED value in `[0, m)`, drawn afresh at every execution (U2; log entry 4). It completes in all three
cases. -/
def modinvCmd (P : Params) (rs1 rs2 rd : RegIdx) (s : State) : State :=
  if s.source rs2 = 0 then (s.setReg rd 0).complete
  else if gcdVal (s.source rs1) (s.source rs2) = 1 then
    (s.setReg rd (inverseVal (s.source rs1) (s.source rs2))).complete
  else ((s.drawFree P).2.setReg rd ((s.drawFree P).1 % s.source rs2)).complete

/-- MODINV (41_modinv_gcd R91). -/
def execModinv (rs1 rs2 rd : RegIdx) (s : State) : Host.Outcome State Fault Refusal :=
  .next (modinvCmd Config.chip rs1 rs2 rd s)

/-- GCD's effect (41_modinv_gcd R94). -/
def gcdCmd (rs1 rs2 rd : RegIdx) (s : State) : State :=
  (s.setReg rd (gcdVal (s.source rs1) (s.source rs2))).complete

/-- GCD (41_modinv_gcd R94). -/
def execGcd (rs1 rs2 rd : RegIdx) (s : State) : Host.Outcome State Fault Refusal :=
  .next (gcdCmd rs1 rs2 rd s)

end Sys2Proof.Machine
end

