-- ==== Sys2Proof/Machine/Factor.lean ====
section
/-! DEFINITION. Machine/Factor.lean: FACTOR, Pollard's rho with Floyd cycle detection (43_factor). -/

namespace Sys2Proof.Machine

/-- How one attempt ends (43_factor R112). -/
inductive AttemptEnd where
  | entropyFailed
  | walked (w : WalkEnd)
  deriving DecidableEq, Repr

/-- ATTEMPT(n) of 43_factor R112 with `q` requests made so far: the seed is drawn, then the increment, then the
walk of at most `n` rounds (R115) starts with both pointers at the seed. -/
def rhoAttempt (P : Params) (n q : Nat) : AttemptEnd × Nat :=
  match randRange P 2 (n - 1) q with
  | none => (.entropyFailed, q + 1)
  | some x =>
    match randRange P 1 (n - 1) (q + 1) with
    | none => (.entropyFailed, q + 2)
    | some c => (.walked (rhoWalk n c n x x), q + 2)

/-- How the attempts of a FACTOR end (43_factor R111). -/
inductive SearchEnd where
  | found (d : Nat)
  /-- Every attempt collapsed. -/
  | exhausted
  | entropyFailed
  deriving DecidableEq, Repr

/-- The attempts of 43_factor R111 on an odd `n >= 3`: how they end, and how many requests have been made then.
An `unfinished` walk, which R115 shows cannot occur within `n` rounds, would count as a collapsed one (DEDUCED, log
entry 14). -/
def rhoSearch (P : Params) (n : Nat) : (attempts q : Nat) → SearchEnd × Nat
  | 0, q => (.exhausted, q)
  | attempts + 1, q =>
    match rhoAttempt P n q with
    | (.entropyFailed, q') => (.entropyFailed, q')
    | (.walked (.found d), q') => (.found d, q')
    | (.walked .collapsed, q') => rhoSearch P n attempts q'
    | (.walked .unfinished, q') => rhoSearch P n attempts q'

/-- SUCCEED(p, q) of 43_factor R111: the pair is written, and a zero in it is InvalidModulus. That branch is
"only reachable with n == 0", where `p = 2` and a 1-bit register cannot hold it: log entry 10. -/
def State.factorSucceed (P : Params) (s : State) (rd rd2 : RegIdx) (p q : Nat) : State :=
  if p = 0 ∨ q = 0 then ((s.setRegFitted P rd p).setReg rd2 q).raise .invalidModulus
  else ((s.setReg rd p).setReg rd2 q).complete

/-- FAIL of 43_factor R111: the sentinel pair, together with InvalidModulus. -/
def State.factorFail (s : State) (rd rd2 : RegIdx) : State :=
  ((s.setReg rd 0).setReg rd2 0).raise .invalidModulus

/-- The end of a FACTOR of `n` whose attempts ended so (43_factor R111, R116). -/
def State.endSearch (P : Params) (s : State) (rd rd2 : RegIdx) (n : Nat) : SearchEnd × Nat → State
  | (.found d, q) => (s.afterRequests q).factorSucceed P rd rd2 d (n / d)
  | (.exhausted, q) => (s.afterRequests q).factorFail rd rd2
  | (.entropyFailed, q) => (s.afterRequests q).raise .entropySourceUnavailable

/-- FACTOR's effect (43_factor R111); with `rd = rd2` it is an illegal command (30_encoding R67;
DEDUCED, log entry 12). -/
def factorCmd (P : Params) (rs1 rd rd2 : RegIdx) (s : State) : State :=
  if rd = rd2 then s.illegalCommand
  else if s.source rs1 = 1 then s.factorFail rd rd2
  else if s.source rs1 % 2 = 0 then s.factorSucceed P rd rd2 2 (s.source rs1 / 2)
  else s.endSearch P rd rd2 (s.source rs1) (rhoSearch P (s.source rs1) P.rhoMaxAttempts s.entropyReqs)

/-- FACTOR (43_factor R111). -/
def execFactor (rs1 rd rd2 : RegIdx) (s : State) : Host.Outcome State Fault Refusal :=
  .next (factorCmd Config.chip rs1 rd rd2 s)

end Sys2Proof.Machine
end

