-- ==== Sys2Proof/Machine/Modexp.lean ====
section
/-! DEFINITION. Machine/Modexp.lean: MODEXP and its two assembler names ENCRYPT and DECRYPT (40_modexp). -/

namespace Sys2Proof.Machine

/-- MODEXP's effect (40_modexp R81): all three sources are read, a modulus of 0 raises OperandRange and writes
nothing, any other writes the value to `x[rd]` and completes. -/
def modexpCmd (rs1 rs2 rs3 rd : RegIdx) (s : State) : State :=
  if s.source rs3 = 0 then s.raise .operandRange
  else (s.setReg rd (modexpVal (s.source rs1) (s.source rs2) (s.source rs3))).complete

/-- MODEXP (40_modexp R81). -/
def execModexp (rs1 rs2 rs3 rd : RegIdx) (s : State) : Host.Outcome State Fault Refusal :=
  .next (modexpCmd rs1 rs2 rs3 rd s)

/-- ENCRYPT: exactly MODEXP's semantics, message, public exponent, modulus (40_modexp R83). -/
def execEncrypt (rs1 rs2 rs3 rd : RegIdx) (s : State) : Host.Outcome State Fault Refusal :=
  .next (modexpCmd rs1 rs2 rs3 rd s)

/-- DECRYPT: exactly MODEXP's semantics, ciphertext, private exponent, modulus (40_modexp R83). -/
def execDecrypt (rs1 rs2 rs3 rd : RegIdx) (s : State) : Host.Outcome State Fault Refusal :=
  .next (modexpCmd rs1 rs2 rs3 rd s)

end Sys2Proof.Machine
end

