-- ==== Sys2Proof/Machine/Primetest.lean ====
section
/-! DEFINITION. Machine/Primetest.lean: PRIMETEST, the Fermat probable-prime test (42_primetest). -/

namespace Sys2Proof.Machine

/-- How the trials of a PRIMETEST end (42_primetest R101). -/
inductive TrialsEnd where
  /-- Every trial passed, also when there was none. -/
  | allPassed
  /-- A witness failed the check: composite, and no later trial is begun. -/
  | witnessFailed
  /-- A request answered `fail`. -/
  | entropyFailed
  deriving DecidableEq, Repr

/-- The trials of 42_primetest R101 on `n`, with `q` requests made so far: how they end, and how many requests
have been made then, one RandBits for each trial begun. -/
def runTrials (P : Params) (n sbits : Nat) : (trials q : Nat) → TrialsEnd × Nat
  | 0, q => (.allPassed, q)
  | trials + 1, q =>
    match randBits P sbits q with
    | none => (.entropyFailed, q + 1)
    | some r =>
      if fermatPasses n (witness n r) then runTrials P n sbits trials (q + 1) else (.witnessFailed, q + 1)

/-- The end of a PRIMETEST whose trials ended so (42_primetest R101): PRIME is written only on completion. -/
def State.endTrials (s : State) : TrialsEnd × Nat → State
  | (.allPassed, q) => ((s.afterRequests q).setPrime true).complete
  | (.witnessFailed, q) => ((s.afterRequests q).setPrime false).complete
  | (.entropyFailed, q) => (s.afterRequests q).raise .entropySourceUnavailable

/-- PRIMETEST's effect (42_primetest R101). -/
def primetestCmd (P : Params) (rs1 : RegIdx) (iter : BitVec 8) (sbits : BitVec 15) (s : State) : State :=
  if s.source rs1 = 0 then s.raise .operandRange
  else if s.source rs1 = 1 then (s.setPrime false).complete
  else s.endTrials (runTrials P (s.source rs1) (sampleBits sbits) (trialCount iter) s.entropyReqs)

/-- PRIMETEST (42_primetest R101). -/
def execPrimetest (rs1 : RegIdx) (iter : BitVec 8) (sbits : BitVec 15) (s : State) :
    Host.Outcome State Fault Refusal :=
  .next (primetestCmd Config.chip rs1 iter sbits s)

end Sys2Proof.Machine
end

