-- ==== Sys2Proof/Machine/Dispatch.lean ====
section
/-! DEFINITION. Machine/Dispatch.lean: one arm for each instruction. -/

namespace Sys2Proof.Machine

def exec (i : Instr) (s : State) : Host.Outcome State Fault Refusal :=
  match i with
  | .modexp rs1 rs2 rs3 rd => Sys2Proof.Machine.execModexp rs1 rs2 rs3 rd s
  | .modinv rs1 rs2 rd => Sys2Proof.Machine.execModinv rs1 rs2 rd s
  | .gcd rs1 rs2 rd => Sys2Proof.Machine.execGcd rs1 rs2 rd s
  | .primetest rs1 iter sbits => Sys2Proof.Machine.execPrimetest rs1 iter sbits s
  | .factor rs1 rd rd2 => Sys2Proof.Machine.execFactor rs1 rd rd2 s
  | .encrypt rs1 rs2 rs3 rd => Sys2Proof.Machine.execEncrypt rs1 rs2 rs3 rd s
  | .decrypt rs1 rs2 rs3 rd => Sys2Proof.Machine.execDecrypt rs1 rs2 rs3 rd s

end Sys2Proof.Machine
end

