-- ==== Sys2Proof/Machine/HostPort.lean ====
section
/-! DEFINITION. Machine/HostPort.lean: the five transactions of the host port (20_memory R41 to R45; 70_reset R160).
Each is one atomic step; none of them reads or writes the host's script. One host, no abort, and a port that
always answers: log entry 9. -/

namespace Sys2Proof.Machine

/-- `WriteReg(i, v)` (20_memory R42): `x[i] <- v`, nothing else; a `v` of more than `W` bits cannot be presented. -/
def hostWriteReg (P : Params) (i : RegIdx) (v : Nat) (s : State) : Host.Outcome State Fault Refusal :=
  if P.fits v then .next (s.setReg i v) else .fault .valueNotPresentable

/-- `ReadReg(i)` (20_memory R43): `x[i]` goes to the host; the MEU's state does not change. -/
def hostReadReg (i : RegIdx) (s : State) : State := { s with replies := .value i (s.getReg i) :: s.replies }

/-- `ReadStatus()` (20_memory R44): the STATUS word goes to the host; the MEU's state does not change. -/
def hostReadStatus (s : State) : State := { s with replies := .status s.statusWord :: s.replies }

/-- `Reset()` (70_reset R160, 10_state R33): ERR and PRIME are 0, and every register holds an unspecified `W`-bit
value, drawn afresh (U1; log entry 7). -/
def hostReset (P : Params) (s : State) : State :=
  { s with
    x := Vector.ofFn fun i : RegIdx => P.clip (P.unspecifiedValue (s.freeDraws + i.val))
    err := 0
    prime := false
    freeDraws := s.freeDraws + 8 }

/-- `Issue(w)` (20_memory R45): decode, then execute to the end; an ILLEGAL word raises IllegalCommand before any
register is read (30_encoding R66, 60_exceptions R143, R148). -/
def hostIssue (w : CmdWord) (s : State) : Host.Outcome State Fault Refusal :=
  match decode w with
  | .ok i => exec i s
  | .error _ => .next s.illegalCommand

/-- One transaction of the host (20_memory R41). -/
def transact (P : Params) (op : HostOp) (s : State) : Host.Outcome State Fault Refusal :=
  match op with
  | .writeReg i v => hostWriteReg P i v s
  | .readReg i => .next (hostReadReg i s)
  | .readStatus => .next (hostReadStatus s)
  | .issue w => hostIssue w s
  | .reset => .next (hostReset P s)

/-- Take the next transaction from the host's script and perform it; with none pending the MEU is idle and holds
its state (60_exceptions R153). -/
def hostTurn (P : Params) (s : State) : Host.Outcome State Fault Refusal :=
  match s.pending with
  | [] => .next s
  | op :: rest => transact P op { s with pending := rest }

end Sys2Proof.Machine
end

