-- ==== Sys2Proof/Machine/Step.lean ====
section
/-! DEFINITION. Machine/Step.lean: one step of the machine, which is one host transaction (20_memory R41, R53). -/

namespace Sys2Proof.Machine

/-- The host's next transaction (20_memory R53: one at a time, in the order the host performs them). -/
def step (s : State) : Host.Outcome State Fault Refusal := hostTurn Config.chip s

/-- `s` with the command whose low `nbits` bits are `w`'s as the host's next transaction: the MEU fetches nothing,
each command word is handed to it by an Issue transaction (10_state R24). Log entry 2. -/
def State.withFetchWord (s : State) (nbits w : Nat) : State :=
  { s with pending := .issue (BitVec.ofNat 32 (w % 2 ^ nbits)) :: s.pending }

end Sys2Proof.Machine
end

