-- ==== Sys2Proof/Machine/Assembler.lean ====
section
/-! DEFINITION. Machine/Assembler.lean: the assembler syntax and the host script notation (30_encoding R71 to R73),
read from text. It is no part of the machine: it says which command word a line stands for, the destinations first
and the sources in the source document's argument order, and what the assembler rejects. DESIGN CHOICE (log entry
15): the blanks, commas and blank lines that R71 and R73 leave to their examples. -/

namespace Sys2Proof.Machine

/-- Why the assembler rejects a line (30_encoding R71). -/
inductive AsmError where
  /-- The mnemonic is none of R71, R72, R73. -/
  | mnemonic
  /-- The number of operands is not the syntax's, or a part is not of its shape. -/
  | operands
  /-- A register name outside `x0` to `x7`. -/
  | register
  /-- `sbits` outside 0 to 32767, `iter` outside 0 to 255, or no decimal number. -/
  | immediate
  /-- FACTOR with its two destinations the same register. -/
  | sameDestination
  deriving DecidableEq, Repr

/-! ## Text -/

/-- A line up to its comment, which `#` begins. -/
def stripComment (l : List Char) : List Char := l.takeWhile (· ≠ '#')

/-- Without blanks at either end. -/
def trimBlanks (l : List Char) : List Char :=
  ((l.dropWhile (· = ' ')).reverse.dropWhile (· = ' ')).reverse

/-- The parts between commas. -/
def commaParts : List Char → List (List Char)
  | [] => [[]]
  | c :: cs =>
    match commaParts cs with
    | [] => [[c]]
    | p :: ps => if c = ',' then [] :: p :: ps else (c :: p) :: ps

/-- The operands of a line: nothing, or the comma-separated parts without their blanks. -/
def operandParts (l : List Char) : List (List Char) :=
  if trimBlanks l = [] then [] else (commaParts l).map trimBlanks

/-- The value of a decimal digit. -/
def digitValue (c : Char) : Option Nat :=
  if '0'.toNat ≤ c.toNat ∧ c.toNat ≤ '9'.toNat then some (c.toNat - '0'.toNat) else none

/-- The number that a run of decimal digits continues. -/
def decimalFrom (acc : Nat) : List Char → Option Nat
  | [] => some acc
  | c :: cs =>
    match digitValue c with
    | none => none
    | some d => decimalFrom (acc * 10 + d) cs

/-- A decimal number: at least one digit. -/
def parseDecimal (l : List Char) : Except AsmError Nat :=
  match l with
  | [] => .error .immediate
  | c :: cs =>
    match decimalFrom 0 (c :: cs) with
    | none => .error .immediate
    | some n => .ok n

/-- A register name, `x0` to `x7`. -/
def parseReg (l : List Char) : Except AsmError RegIdx :=
  match l with
  | ['x', c] =>
    match digitValue c with
    | none => .error .register
    | some d => if h : d < 8 then .ok ⟨d, h⟩ else .error .register
  | _ => .error .register

/-! ## Immediates (30_encoding R69, R71) -/

/-- `iter`, 0 to 255. -/
def asmIter (n : Nat) : Except AsmError (BitVec 8) :=
  if n < 2 ^ 8 then .ok (BitVec.ofNat 8 n) else .error .immediate

/-- `sbits`, 0 to 32767. -/
def asmSbits (n : Nat) : Except AsmError (BitVec 15) :=
  if n < 2 ^ 15 then .ok (BitVec.ofNat 15 n) else .error .immediate

/-! ## Commands (30_encoding R71, R72) -/

/-- `xd, xb, xe, xm`. -/
def asmFour (mk : RegIdx → RegIdx → RegIdx → RegIdx → Instr) (ops : List (List Char)) : Except AsmError Instr :=
  match ops with
  | [d, a, b, c] => do
    let rd ← parseReg d
    let rs1 ← parseReg a
    let rs2 ← parseReg b
    let rs3 ← parseReg c
    return mk rs1 rs2 rs3 rd
  | _ => .error .operands

/-- `xd, xa, xb`. -/
def asmThree (mk : RegIdx → RegIdx → RegIdx → Instr) (ops : List (List Char)) : Except AsmError Instr :=
  match ops with
  | [d, a, b] => do
    let rd ← parseReg d
    let rs1 ← parseReg a
    let rs2 ← parseReg b
    return mk rs1 rs2 rd
  | _ => .error .operands

/-- PRIMETEST of register `n` with `sbits` and, when it is written, `iter`; else `iter` is the source's stated
default 30, which the assembler fills in, never the hardware (30_encoding R71). -/
def asmPrimetestOf (n : List Char) (sbits : List Char) (iter : Option (List Char)) : Except AsmError Instr := do
  let rs1 ← parseReg n
  let sb ← asmSbits (← parseDecimal sbits)
  let it ← match iter with
    | none => asmIter Config.iterDefault
    | some l => do asmIter (← parseDecimal l)
  return .primetest rs1 it sb

/-- `xn, sbits` or `xn, sbits, iter`. -/
def asmPrimetest (ops : List (List Char)) : Except AsmError Instr :=
  match ops with
  | [n, s] => asmPrimetestOf n s none
  | [n, s, it] => asmPrimetestOf n s (some it)
  | _ => .error .operands

/-- `xp, xq, xn`, with `xp` and `xq` different. -/
def asmFactor (ops : List (List Char)) : Except AsmError Instr :=
  match ops with
  | [p, q, n] => do
    let rd ← parseReg p
    let rd2 ← parseReg q
    let rs1 ← parseReg n
    if rd = rd2 then .error .sameDestination else return .factor rs1 rd rd2
  | _ => .error .operands

/-- The mnemonic of a line and the rest of it. -/
def splitMnemonic (l : List Char) : List Char × List Char :=
  ((trimBlanks l).takeWhile (· ≠ ' '), (trimBlanks l).dropWhile (· ≠ ' '))

/-- One command of R71 or R72. -/
def asmCommand (l : List Char) : Except AsmError Instr :=
  let m := (splitMnemonic l).1
  let ops := operandParts (splitMnemonic l).2
  if m = "MODEXP".toList then asmFour .modexp ops
  else if m = "MODINV".toList then asmThree .modinv ops
  else if m = "GCD".toList then asmThree .gcd ops
  else if m = "PRIMETEST".toList then asmPrimetest ops
  else if m = "FACTOR".toList then asmFactor ops
  else if m = "ENCRYPT".toList then asmFour .encrypt ops
  else if m = "DECRYPT".toList then asmFour .decrypt ops
  else .error .mnemonic

/-- The instruction a line of assembler text stands for (30_encoding R71, R72). -/
def assemble (line : String) : Except AsmError Instr := asmCommand (stripComment line.toList)

/-- The command word a line of assembler text stands for. -/
def assembleWord (line : String) : Except AsmError CmdWord := (assemble line).map encode

/-! ## Host scripts (30_encoding R73) -/

/-- `xi -> name`: the register of a READ line. -/
def parseRead (l : List Char) : Except AsmError RegIdx :=
  parseReg (trimBlanks ((trimBlanks l).takeWhile (· ≠ ' ')))

/-- `xi, v`: the transaction of a LOAD line. -/
def parseLoad (ops : List (List Char)) : Except AsmError HostOp :=
  match ops with
  | [r, v] => do
    let i ← parseReg r
    let n ← parseDecimal v
    return .writeReg i n
  | _ => .error .operands

/-- The transaction of one line of a host script, `none` for a `HOST:` line, which "is not a transaction", and for a
line that is empty or only a comment (30_encoding R73). -/
def scriptLine (line : String) : Except AsmError (Option HostOp) :=
  let l := stripComment line.toList
  let m := (splitMnemonic l).1
  let rest := (splitMnemonic l).2
  if m = [] ∨ m = "HOST:".toList then .ok none
  else if m = "LOAD".toList then (parseLoad (operandParts rest)).map some
  else if m = "READ".toList then (parseRead rest).map fun i => some (.readReg i)
  else if m = "STATUS".toList then .ok (some .readStatus)
  else (asmCommand l).map fun i => some (.issue (encode i))

/-- The host transactions of a script, top to bottom (30_encoding R73). -/
def assembleScript : List String → Except AsmError (List HostOp)
  | [] => .ok []
  | line :: lines =>
    match scriptLine line, assembleScript lines with
    | .ok none, .ok ops => .ok ops
    | .ok (some op), .ok ops => .ok (op :: ops)
    | .error e, _ => .error e
    | _, .error e => .error e

end Sys2Proof.Machine
end

