-- ==== Sys2Proof/Safety.lean ====
section
/-! DEFINITION. Safety.lean: what counts as a safe state and a safe use of the MEU, in the terms claims use. -/

namespace Sys2Proof.Machine

/-! ## Legal states -/

/-- Every operand register holds a value below `2^W` (00_scope R10, R11). -/
def State.regsFit (P : Params) (s : State) : Prop := ∀ i : RegIdx, P.fits (s.getReg i) = true

/-- `STATUS.ERR` is one of 0 to 4: "the hardware never produces 5 to 15" (10_state R27). -/
def State.errLegal (s : State) : Prop := s.err.toNat ≤ 4

/-- The invariant of the machine: registers fit and the error code is legal. -/
def State.Legal (P : Params) (s : State) : Prop := s.regsFit P ∧ s.errLegal

end Sys2Proof.Machine

namespace Sys2Proof

/-! ## Which registers an instruction names (10_state R21) -/

/-- The registers an instruction reads (10_state R21). -/
def Instr.sources : Instr → List RegIdx
  | .modexp rs1 rs2 rs3 _ => [rs1, rs2, rs3]
  | .modinv rs1 rs2 _ => [rs1, rs2]
  | .gcd rs1 rs2 _ => [rs1, rs2]
  | .primetest rs1 _ _ => [rs1]
  | .factor rs1 _ _ => [rs1]
  | .encrypt rs1 rs2 rs3 _ => [rs1, rs2, rs3]
  | .decrypt rs1 rs2 rs3 _ => [rs1, rs2, rs3]

/-- The registers an instruction may write (10_state R21). -/
def Instr.dests : Instr → List RegIdx
  | .modexp _ _ _ rd => [rd]
  | .modinv _ _ rd => [rd]
  | .gcd _ _ rd => [rd]
  | .primetest _ _ _ => []
  | .factor _ rd rd2 => [rd, rd2]
  | .encrypt _ _ _ rd => [rd]
  | .decrypt _ _ _ rd => [rd]

/-- The most entropy requests an instruction can make (20_memory R49; 42_primetest R101; 43_factor R115). -/
def Instr.maxRequests (P : Params) : Instr → Nat
  | .modexp _ _ _ _ => 0
  | .modinv _ _ _ => 0
  | .gcd _ _ _ => 0
  | .primetest _ iter _ => iter.toNat
  | .factor _ _ _ => 2 * P.rhoMaxAttempts
  | .encrypt _ _ _ _ => 0
  | .decrypt _ _ _ _ => 0

end Sys2Proof

namespace Sys2Proof.Machine

/-! ## The effect of an instruction -/

/-- The effect of an instruction on parameters `P`; exec runs it on those of the machine, `Config.chip`. A statement
for every `P` holds whatever the width, the attempt bound and the entropy answers are. -/
def effect (P : Params) : Instr → State → State
  | .modexp rs1 rs2 rs3 rd => modexpCmd rs1 rs2 rs3 rd
  | .modinv rs1 rs2 rd => modinvCmd P rs1 rs2 rd
  | .gcd rs1 rs2 rd => gcdCmd rs1 rs2 rd
  | .primetest rs1 iter sbits => primetestCmd P rs1 iter sbits
  | .factor rs1 rd rd2 => factorCmd P rs1 rd rd2
  | .encrypt rs1 rs2 rs3 rd => modexpCmd rs1 rs2 rs3 rd
  | .decrypt rs1 rs2 rs3 rd => modexpCmd rs1 rs2 rs3 rd

/-! ## Initialised use of registers (70_reset R162, 10_state R23)

A register not written since reset holds an unspecified value, and a well-formed program reads none
(93_implementation_defined U1). The set of registers written since reset is followed beside a run. -/

/-- The registers a transaction reads. -/
def HostOp.reads : HostOp → List RegIdx
  | .writeReg _ _ => []
  | .readReg i => [i]
  | .readStatus => []
  | .issue w =>
    match decode w with
    | .ok i => i.sources
    | .error _ => []
  | .reset => []

/-- A command that ended with this error code has written its destinations: it completed, or it was FACTOR's
InvalidModulus, which comes with the result pair (60_exceptions R146). -/
def destsWritten (err : BitVec 4) : Bool := err == 0 || err == ErrKind.code .invalidModulus

/-- The registers written since reset after a transaction that ended in `s'`. -/
def writtenAfter (written : List RegIdx) (op : HostOp) (s' : State) : List RegIdx :=
  match op with
  | .writeReg i _ => i :: written
  | .readReg _ => written
  | .readStatus => written
  | .issue w =>
    match decode w with
    | .ok i => if destsWritten s'.err then i.dests ++ written else written
    | .error _ => written
  | .reset => []

/-- The next transaction reads only registers written since reset (70_reset R162). -/
def readsInitialised (written : List RegIdx) (op : HostOp) : Bool := op.reads.all (· ∈ written)

/-- A run of the host's whole script that reads no register before it was written since reset, and stops at
nothing (70_reset R162). -/
def safeRun (P : Params) : (ops : List HostOp) → (written : List RegIdx) → State → Bool
  | [], _, _ => true
  | op :: ops, written, s =>
    readsInitialised written op &&
      match transact P op s with
      | .next s' => safeRun P ops (writtenAfter written op s') s'
      | .fault _ => false
      | .refused _ => false

/-- The state after `k` steps, if none of them stops. -/
def steps : (k : Nat) → State → Option State
  | 0, s => some s
  | k + 1, s =>
    match step s with
    | .next t => steps k t
    | .fault _ => none
    | .refused _ => none

/-! ## Key material (44_host_sequences R125)

Host software only; 40_modexp R84 (3) speaks of it. -/

/-- `lcm(a, b)` (44_host_sequences R125). -/
def totientLcm (a b : Nat) : Nat := (a * b) / Nat.gcd a b

/-- KeyMaterial and its invariant (44_host_sequences R125; the bit-length clause is corrected in R126). -/
structure KeyMaterial where
  p : Nat
  q : Nat
  n : Nat
  e : Nat
  d : Nat
  deriving DecidableEq, Repr

/-- `p`, `q` distinct odd primes, `n = p q`, `1 < e < λ`, `gcd(e, λ) = 1`, `e d ≡ 1 (mod λ)` with
`λ = lcm(p - 1, q - 1)` (44_host_sequences R125). -/
def KeyMaterial.Valid (k : KeyMaterial) : Prop :=
  k.p.Prime ∧ k.q.Prime ∧ k.p ≠ k.q ∧ k.p % 2 = 1 ∧ k.q % 2 = 1 ∧ k.n = k.p * k.q ∧
    1 < k.e ∧ k.e < totientLcm (k.p - 1) (k.q - 1) ∧ Nat.gcd k.e (totientLcm (k.p - 1) (k.q - 1)) = 1 ∧
    (k.e * k.d) % totientLcm (k.p - 1) (k.q - 1) = 1

end Sys2Proof.Machine
end

