-- ==== Sys2Proof/Certificates/Slice0/Obligations.lean ====
section
/-! DEFINITION. Certificates/Slice0/Obligations.lean: the statements for the provers, from the numbered rules of spec/.
In every equation of a next state the fields not named keep their values: that is the instruction's frame. The
fields `entropyReqs` and `freeDraws` are the model's (log entries 3 and 4): they count entropy requests and
unspecified values. -/

open Sys2Proof Sys2Proof.Machine

/-! ## Encoding (30_encoding) -/

/-- Every well-formed instruction's word decodes to it; a pseudo-instruction's to its MODEXP (R61, R62, R64, R72). -/
def Obligations.DecodeOfEncode : Prop :=
  ∀ i : Instr, i.wellFormed = true → decode (encode i) = .ok i.core

/-- A word that decodes to an instruction is that instruction's word, so two different words never mean the same
command, and no field of a word is ignored (R64, R65). -/
def Obligations.EncodeOfDecode : Prop :=
  ∀ (w : CmdWord) (i : Instr), decode w = .ok i → encode i = w ∧ i.wellFormed = true ∧ i.core = i

/-- Where the two formats place each field, as the number the word is (R61, R62). -/
def Obligations.EncodedFieldPositions : Prop :=
  (∀ rs1 rs2 rs3 rd : RegIdx,
    ∀ i ∈ [Instr.modexp rs1 rs2 rs3 rd, .encrypt rs1 rs2 rs3 rd, .decrypt rs1 rs2 rs3 rd],
      (encode i).toNat = 1 * 2 ^ 26 + rs1 * 2 ^ 23 + rs2 * 2 ^ 20 + rs3 * 2 ^ 17 + rd * 2 ^ 14) ∧
  (∀ rs1 rs2 rd : RegIdx,
    (encode (.modinv rs1 rs2 rd)).toNat = 2 * 2 ^ 26 + rs1 * 2 ^ 23 + rs2 * 2 ^ 20 + rd * 2 ^ 14) ∧
  (∀ rs1 rs2 rd : RegIdx,
    (encode (.gcd rs1 rs2 rd)).toNat = 3 * 2 ^ 26 + rs1 * 2 ^ 23 + rs2 * 2 ^ 20 + rd * 2 ^ 14) ∧
  (∀ (rs1 : RegIdx) (iter : BitVec 8) (sbits : BitVec 15),
    (encode (.primetest rs1 iter sbits)).toNat = 4 * 2 ^ 26 + rs1 * 2 ^ 23 + iter.toNat * 2 ^ 15 + sbits.toNat) ∧
  (∀ rs1 rd rd2 : RegIdx,
    (encode (.factor rs1 rd rd2)).toNat = 5 * 2 ^ 26 + rs1 * 2 ^ 23 + rd * 2 ^ 14 + rd2 * 2 ^ 11)

/-- The opcode map: a word is an operation, with its fields where the format has them, if and only if
`(w AND mask) == match`; FACTOR also needs `rd != rd2`; and there are no operations but these five (R63). -/
def Obligations.DecodeIsTheOpcodeMap : Prop :=
  ∀ w : CmdWord,
    (decode w = .ok (.modexp (rs1Of w) (rs2Of w) (rs3Of w) (rdOf w)) ↔ w &&& 0xFC003FFF = 0x04000000) ∧
    (decode w = .ok (.modinv (rs1Of w) (rs2Of w) (rdOf w)) ↔ w &&& 0xFC0E3FFF = 0x08000000) ∧
    (decode w = .ok (.gcd (rs1Of w) (rs2Of w) (rdOf w)) ↔ w &&& 0xFC0E3FFF = 0x0C000000) ∧
    (decode w = .ok (.primetest (rs1Of w) (iterOf w) (sbitsOf w)) ↔ w &&& 0xFC000000 = 0x10000000) ∧
    (decode w = .ok (.factor (rs1Of w) (rdOf w) (rd2Of w)) ↔
      w &&& 0xFC7E07FF = 0x14000000 ∧ w.extractLsb' 14 3 ≠ w.extractLsb' 11 3) ∧
    ∀ i, decode w = .ok i →
      i ∈ [.modexp (rs1Of w) (rs2Of w) (rs3Of w) (rdOf w), .modinv (rs1Of w) (rs2Of w) (rdOf w),
        .gcd (rs1Of w) (rs2Of w) (rdOf w), .primetest (rs1Of w) (iterOf w) (sbitsOf w),
        .factor (rs1Of w) (rdOf w) (rd2Of w)]

/-- Which words are illegal, and what issuing one does: `ERR` is 3 and nothing else changes (R66). -/
def Obligations.IllegalCommands : Prop :=
  (∀ w : CmdWord, (∃ e, decode w = .error e) ↔
    w.extractLsb' 26 6 = 0#6 ∨ 6 ≤ (w.extractLsb' 26 6).toNat ∨
    (w.extractLsb' 26 6 = 1#6 ∧ w.extractLsb' 0 14 ≠ 0#14) ∨
    ((w.extractLsb' 26 6 = 2#6 ∨ w.extractLsb' 26 6 = 3#6) ∧
      (w.extractLsb' 17 3 ≠ 0#3 ∨ w.extractLsb' 0 14 ≠ 0#14)) ∨
    (w.extractLsb' 26 6 = 5#6 ∧
      (w.extractLsb' 17 6 ≠ 0#6 ∨ w.extractLsb' 0 11 ≠ 0#11 ∨ w.extractLsb' 14 3 = w.extractLsb' 11 3))) ∧
  (∀ (s : State) (w : CmdWord) (rest : List HostOp) (e : IllegalWord),
    s.pending = .issue w :: rest → decode w = .error e → step s = .next { s with pending := rest, err := 3 })

/-- The word of a FACTOR with one register as both destinations is illegal (R67). That such an instruction, if it is
executed, sets `ERR` to 3 and changes nothing else is the model's choice, DEDUCED from that rule (log entry 12). -/
def Obligations.FactorSameDestinationIsIllegal : Prop :=
  ∀ rs1 rd : RegIdx, decode (encode (.factor rs1 rd rd)) = .error .factorSameDestination ∧
    ∀ s : State, exec (.factor rs1 rd rd) s = .next { s with err := 3 }

/-- The words of the six examples of R71 decode to what they stand for. -/
def Obligations.ExampleWordsDecode : Prop :=
  decode 0x0414C000 = .ok (.modexp 0 1 2 3) ∧
  decode 0x08108000 = .ok (.modinv 0 1 2) ∧
  decode 0x0C108000 = .ok (.gcd 0 1 2) ∧
  decode 0x100F0008 = .ok (.primetest 0 30 8) ∧
  decode 0x10028010 = .ok (.primetest 0 5 16) ∧
  decode 0x14005000 = .ok (.factor 0 1 2)

/-- The assembler's examples of R71 and R83: destinations first, the omitted trial count 30. -/
def Obligations.AssemblerExamples : Prop :=
  assembleWord "MODEXP x3, x0, x1, x2" = .ok 0x0414C000 ∧
  assembleWord "MODINV x2, x0, x1" = .ok 0x08108000 ∧
  assembleWord "GCD x2, x0, x1" = .ok 0x0C108000 ∧
  assembleWord "PRIMETEST x0, 8" = .ok 0x100F0008 ∧
  assembleWord "PRIMETEST x0, 16, 5" = .ok 0x10028010 ∧
  assembleWord "FACTOR x1, x2, x0" = .ok 0x14005000 ∧
  assembleWord "ENCRYPT x4, x3, x1, x2" = .ok 0x05950000

/-- Whatever text the assembler accepts, the word it gives is legal and is that command (R71, R72). -/
def Obligations.AssembledWordsAreLegal : Prop :=
  ∀ (line : String) (i : Instr), assemble line = .ok i →
    i.wellFormed = true ∧ assembleWord line = .ok (encode i) ∧ decode (encode i) = .ok i.core

/-! ## The host port (20_memory, 70_reset) -/

/-- Issuing a word that decodes runs that instruction, once, on the state without the transaction (R45; taking the
transaction off the host's script is the model's, log entry 2). -/
def Obligations.StepRunsDecodedInstruction : Prop :=
  ∀ (s : State) (w : CmdWord) (rest : List HostOp) (i : Instr),
    s.pending = .issue w :: rest → decode w = .ok i → step s = exec i { s with pending := rest }

/-- WriteReg: `x[i] <- v` and nothing else (R42). A value of more than `W` bits "cannot be presented", and the spec
defines no case for it; that the step is then the fault `valueNotPresentable` is the model's choice, a DESIGN CHOICE
(log entry 13). -/
def Obligations.WriteRegTransaction : Prop :=
  ∀ (s : State) (i : RegIdx) (v : Nat) (rest : List HostOp), s.pending = .writeReg i v :: rest →
    step s = if Config.chip.fits v then .next { s with pending := rest, x := s.x.set i v }
      else .fault .valueNotPresentable

/-- ReadReg returns `x[i]` and changes no state of the MEU (R43). -/
def Obligations.ReadRegTransaction : Prop :=
  ∀ (s : State) (i : RegIdx) (rest : List HostOp), s.pending = .readReg i :: rest →
    step s = .next { s with pending := rest, replies := .value i (s.getReg i) :: s.replies }

/-- ReadStatus returns the word `ERR + 16 * PRIME` and changes no state of the MEU (R44). -/
def Obligations.ReadStatusTransaction : Prop :=
  ∀ (s : State) (rest : List HostOp), s.pending = .readStatus :: rest →
    ∃ w : BitVec 32, w.toNat = s.err.toNat + 16 * (if s.prime then 1 else 0) ∧
      step s = .next { s with pending := rest, replies := .status w :: s.replies }

/-- A value that can be presented is read back (R53 (b), with R42 and R43). -/
def Obligations.WriteThenReadReturnsValue : Prop :=
  ∀ (s : State) (i : RegIdx) (v : Nat) (rest : List HostOp),
    s.pending = .writeReg i v :: .readReg i :: rest → Config.chip.fits v = true →
      ∃ t u : State, step s = .next t ∧ step t = .next u ∧ u.replies = .value i v :: s.replies ∧
        u.pending = rest ∧ u.err = s.err ∧ u.prime = s.prime ∧ ∀ j, j ≠ i → u.getReg j = s.getReg j

/-- Reset: `ERR` and `PRIME` are 0, and each register holds some `W`-bit value. That these are eight fresh free values
is the model's choice (log entry 7) (R33, R160). -/
def Obligations.ResetTransaction : Prop :=
  ∀ (s : State) (rest : List HostOp), s.pending = .reset :: rest →
    ∃ v : Vector Nat 8, (∀ i : RegIdx, Config.chip.fits v[i] = true) ∧
      step s = .next { s with pending := rest, x := v, err := 0, prime := false, freeDraws := s.freeDraws + 8 }

/-- The state a power-on reset leaves: the STATUS word is 0 (R33). -/
def Obligations.ResetStatusIsZero : Prop :=
  State.reset.err = 0 ∧ State.reset.prime = false ∧ State.reset.statusWord = 0

/-- Between transactions the MEU holds its state (R153). -/
def Obligations.IdleHoldsState : Prop :=
  ∀ s : State, s.pending = [] → step s = .next s

/-- Every issued word, legal or not, ends its command with an `ERR` of 0 to 4, whatever the state, the operands and
the entropy answers; it returns nothing to the host but that (R27, R45, R170). -/
def Obligations.EveryIssueEnds : Prop :=
  ∀ (s : State) (w : CmdWord) (rest : List HostOp), s.pending = .issue w :: rest →
    ∃ t : State, step s = .next t ∧ t.err.toNat ≤ 4 ∧ t.pending = rest ∧ t.replies = s.replies

/-! ## MODEXP, ENCRYPT, DECRYPT (40_modexp) -/

/-- MODEXP and its two names: 0 when `b mod m = 0`, for every `e`, else `(b ^ e) mod m`; OperandRange when `m = 0`
(R81). The value at `b mod m = 0`, `e = 0` is contested in the source (log entry 8). -/
def Obligations.ModexpResult : Prop :=
  ∀ (rs1 rs2 rs3 rd : RegIdx) (s : State),
    ∀ i ∈ [Instr.modexp rs1 rs2 rs3 rd, .encrypt rs1 rs2 rs3 rd, .decrypt rs1 rs2 rs3 rd],
      (s.getReg rs3 ≠ 0 →
        exec i s = .next { s with
          x := s.x.set rd (if s.getReg rs1 % s.getReg rs3 = 0 then 0
            else s.getReg rs1 ^ s.getReg rs2 % s.getReg rs3)
          err := 0 }) ∧
      (s.getReg rs3 = 0 → exec i s = .next { s with err := 4 })

/-- ENCRYPT and DECRYPT have MODEXP's word and MODEXP's effect (R72, R83). -/
def Obligations.CipherNamesAreModexp : Prop :=
  ∀ rs1 rs2 rs3 rd : RegIdx, ∀ i ∈ [Instr.encrypt rs1 rs2 rs3 rd, .decrypt rs1 rs2 rs3 rd],
    encode i = encode (.modexp rs1 rs2 rs3 rd) ∧ ∀ s : State, exec i s = exec (.modexp rs1 rs2 rs3 rd) s

/-- Laws (1), (2) and (5) of R84, on the value MODEXP writes. -/
def Obligations.ModexpLaws : Prop :=
  (∀ b m, 1 < m → b % m ≠ 0 → modexpVal b 0 m = 1) ∧
  (∀ b e, modexpVal b e 1 = 0) ∧
  (∀ b e m, 1 ≤ m → modexpVal b e m = modexpVal (b % m) e m)

/-- Law (3) of R84: for key material as R125 has it, decrypting what was encrypted gives the message back, and
encrypting what was decrypted too, through two commands of the MEU. -/
def Obligations.RsaRoundTrip : Prop :=
  ∀ (k : KeyMaterial) (s : State) (rv re rd rn rc rm : RegIdx), k.Valid →
    s.getReg rv < k.n → s.getReg re = k.e → s.getReg rd = k.d → s.getReg rn = k.n →
    rc ≠ re → rc ≠ rd → rc ≠ rn →
      (∃ t u, exec (.encrypt rv re rn rc) s = .next t ∧ exec (.decrypt rc rd rn rm) t = .next u ∧
        u.getReg rm = s.getReg rv ∧ u.err = 0) ∧
      (∃ t u, exec (.decrypt rv rd rn rc) s = .next t ∧ exec (.encrypt rc re rn rm) t = .next u ∧
        u.getReg rm = s.getReg rv ∧ u.err = 0)

/-! ## MODINV and GCD (41_modinv_gcd) -/

/-- MODINV in its three cases: the sentinel 0; the unique inverse in `[0, m)`; some value in `[0, m)`, drawn
afresh (R91; the draw is a free value, log entry 4). -/
def Obligations.ModinvResult : Prop :=
  ∀ (rs1 rs2 rd : RegIdx) (s : State),
    (s.getReg rs2 = 0 → exec (.modinv rs1 rs2 rd) s = .next { s with x := s.x.set rd 0, err := 0 }) ∧
    (s.getReg rs2 ≠ 0 → Nat.gcd (s.getReg rs1) (s.getReg rs2) = 1 →
      ∃ v, v < s.getReg rs2 ∧ s.getReg rs1 * v % s.getReg rs2 = 1 % s.getReg rs2 ∧
        (∀ u, u < s.getReg rs2 → s.getReg rs1 * u % s.getReg rs2 = 1 % s.getReg rs2 → u = v) ∧
        exec (.modinv rs1 rs2 rd) s = .next { s with x := s.x.set rd v, err := 0 }) ∧
    (s.getReg rs2 ≠ 0 → Nat.gcd (s.getReg rs1) (s.getReg rs2) ≠ 1 →
      ∃ v, v < s.getReg rs2 ∧
        exec (.modinv rs1 rs2 rd) s =
          .next { s with x := s.x.set rd v, err := 0, freeDraws := s.freeDraws + 1 })

/-- GCD writes 0 for two zeros, otherwise the largest natural number that divides both operands (R93, R94). -/
def Obligations.GcdResult : Prop :=
  ∀ (rs1 rs2 rd : RegIdx) (s : State),
    ∃ g, exec (.gcd rs1 rs2 rd) s = .next { s with x := s.x.set rd g, err := 0 } ∧
      ((s.getReg rs1 = 0 ∧ s.getReg rs2 = 0 ∧ g = 0) ∨
        (¬(s.getReg rs1 = 0 ∧ s.getReg rs2 = 0) ∧ g ∣ s.getReg rs1 ∧ g ∣ s.getReg rs2 ∧
          ∀ d, d ∣ s.getReg rs1 → d ∣ s.getReg rs2 → d ≤ g))

/-- The iterative form hardware uses returns the gcd for all naturals, and the swap is not observable (R95). -/
def Obligations.GcdMethodReturnsGcd : Prop :=
  ∀ a b : Nat, gcdMethod a b = Nat.gcd a b ∧ ∀ turns, b ≤ turns → gcdLoop turns a b = Nat.gcd a b

/-! ## PRIMETEST (42_primetest) -/

/-- PRIMETEST in all its cases (R101): `n = 0`; `n = 1`; and for `n >= 2`, with one RandBits(sbits) for each trial
begun: all `iter` trials pass; or the first that does not has a failing witness; or gets `fail`. -/
def Obligations.PrimetestResult : Prop :=
  ∀ (rs1 : RegIdx) (iter : BitVec 8) (sbits : BitVec 15) (s : State),
    let n := s.getReg rs1
    let q := s.entropyReqs
    let answer := fun j => randBits Config.chip sbits.toNat (q + j)
    let check := fun r => (r % (n - 1) + 1) ^ (n - 1) % n
    (n = 0 → exec (.primetest rs1 iter sbits) s = .next { s with err := 4 }) ∧
    (n = 1 → exec (.primetest rs1 iter sbits) s = .next { s with prime := false, err := 0 }) ∧
    (2 ≤ n →
      ((∀ j < iter.toNat, ∃ r, answer j = some r ∧ check r = 1) ∧
        exec (.primetest rs1 iter sbits) s =
          .next { s with prime := true, err := 0, entropyReqs := q + iter.toNat }) ∨
      (∃ j < iter.toNat, (∀ k < j, ∃ r, answer k = some r ∧ check r = 1) ∧
        ((∃ r, answer j = some r ∧ check r ≠ 1 ∧
            exec (.primetest rs1 iter sbits) s =
              .next { s with prime := false, err := 0, entropyReqs := q + j + 1 }) ∨
          (answer j = none ∧
            exec (.primetest rs1 iter sbits) s = .next { s with err := 1, entropyReqs := q + j + 1 }))))

/-- A PRIMETEST that completes never declares a prime composite, and its verdict "composite" on an `n >= 2` is always
right, whatever the entropy answers (R103 (a), (b)). -/
def Obligations.PrimetestNeverRejectsPrime : Prop :=
  ∀ (rs1 : RegIdx) (iter : BitVec 8) (sbits : BitVec 15) (s : State),
    (Nat.Prime (s.getReg rs1) →
      ∃ t, exec (.primetest rs1 iter sbits) s = .next t ∧
        ((t.err = 0 ∧ t.prime = true) ∨ (t.err = 1 ∧ t.prime = s.prime))) ∧
    (∀ P t, t = effect P (.primetest rs1 iter sbits) s → 2 ≤ s.getReg rs1 → t.err = 0 → t.prime = false →
      ¬ Nat.Prime (s.getReg rs1))

/-- The verdict "probably prime" proves nothing: every `n >= 2` has answers of the entropy port with which every trial
passes (R103 (c)). -/
def Obligations.EveryNumberCanPass : Prop :=
  ∀ (rs1 : RegIdx) (iter : BitVec 8) (sbits : BitVec 15) (s : State), 2 ≤ s.getReg rs1 →
    ∃ P : Params, effect P (.primetest rs1 iter sbits) s =
      { s with prime := true, err := 0, entropyReqs := s.entropyReqs + iter.toNat }

/-- With no trials every `n >= 2` is declared prime and no request is made (R104 (e)); with `n = 2`, `n = 3` or no
sampled bits no witness fails (R104 (c), (d), (f)). -/
def Obligations.PrimetestCornerVerdicts : Prop :=
  ∀ (rs1 : RegIdx) (iter : BitVec 8) (sbits : BitVec 15) (s : State), 2 ≤ s.getReg rs1 →
    (iter = 0 → exec (.primetest rs1 iter sbits) s = .next { s with prime := true, err := 0 }) ∧
    (s.getReg rs1 = 2 ∨ s.getReg rs1 = 3 ∨ sbits = 0 →
      ∃ t, exec (.primetest rs1 iter sbits) s = .next t ∧
        ((t.err = 0 ∧ t.prime = true) ∨ (t.err = 1 ∧ t.prime = s.prime)))

/-- The witness of an `sbits`-bit draw lies in `[1, min(2^sbits, n - 1)]` (R102). -/
def Obligations.WitnessRange : Prop :=
  ∀ n k r : Nat, 2 ≤ n → r < 2 ^ k →
    witness n r = r % (n - 1) + 1 ∧ 1 ≤ witness n r ∧ witness n r ≤ min (2 ^ k) (n - 1)

/-! ## The entropy port (20_memory R46 to R48) -/

/-- Answers lie in the request's range, and every value of the range and `fail` can be answered (R46, R47, R48). -/
def Obligations.EntropyAnswersAreTheRange : Prop :=
  (∀ k q r, (∃ P, randBits P k q = some r) ↔ r < 2 ^ k) ∧
  (∀ lo hi q v, lo ≤ hi → ((∃ P, randRange P lo hi q = some v) ↔ lo ≤ v ∧ v ≤ hi)) ∧
  (∀ k lo hi q, ∃ P, randBits P k q = none ∧ randRange P lo hi q = none)

/-- No instruction makes more requests than it may: none for MODEXP, MODINV, GCD, ENCRYPT and DECRYPT; one for each
trial of PRIMETEST; two for each attempt of FACTOR (R49, R101, R115). -/
def Obligations.EntropyRequestsAreBounded : Prop :=
  ∀ (i : Instr) (s t : State), exec i s = .next t →
    s.entropyReqs ≤ t.entropyReqs ∧ t.entropyReqs ≤ s.entropyReqs + i.maxRequests Config.chip

/-! ## FACTOR (43_factor) -/

/-- FACTOR without a walk: `n = 1` gives the sentinel pair and InvalidModulus; an even `n >= 2` gives `(2, n div 2)`;
no entropy request is made in either (R111, R117 (b), (c), (e)). -/
def Obligations.FactorWithoutWalk : Prop :=
  ∀ (rs1 rd rd2 : RegIdx) (s : State), rd ≠ rd2 →
    (s.getReg rs1 = 1 →
      exec (.factor rs1 rd rd2) s = .next { s with x := (s.x.set rd 0).set rd2 0, err := 2 }) ∧
    (2 ≤ s.getReg rs1 → s.getReg rs1 % 2 = 0 →
      exec (.factor rs1 rd rd2) s =
        .next { s with x := (s.x.set rd 2).set rd2 (s.getReg rs1 / 2), err := 0 })

/-- FACTOR of 0 gives `(2, 0)` and InvalidModulus (R117 (a)); where a register has one bit and cannot hold 2, the first
is some 1-bit value: that clause is the model's choice (log entry 10). -/
def Obligations.FactorOfZero : Prop :=
  ∀ (rs1 rd rd2 : RegIdx) (s : State), rd ≠ rd2 → s.getReg rs1 = 0 →
    (Config.chip.fits 2 = true ∧
      exec (.factor rs1 rd rd2) s = .next { s with x := (s.x.set rd 2).set rd2 0, err := 2 }) ∨
    (Config.chip.width = some 1 ∧ ∃ p, p < 2 ∧
      exec (.factor rs1 rd rd2) s =
        .next { s with x := (s.x.set rd p).set rd2 0, err := 2, freeDraws := s.freeDraws + 1 })

/-- FACTOR of an odd `n >= 3`, attempt by attempt (R111): the seed is drawn before the increment; a collapsed attempt
starts the next; a factor, or `fail`, ends the command; when all attempts collapse it is InvalidModulus. -/
def Obligations.FactorSearch : Prop :=
  ∀ (rs1 rd rd2 : RegIdx) (s : State),
    let n := s.getReg rs1
    let q := s.entropyReqs
    let seed := fun j => randRange Config.chip 2 (n - 1) (q + 2 * j)
    let increment := fun j => randRange Config.chip 1 (n - 1) (q + 2 * j + 1)
    let collapses := fun j => ∃ x c, seed j = some x ∧ increment j = some c ∧ rhoWalk n c n x x = .collapsed
    rd ≠ rd2 → 3 ≤ n → n % 2 = 1 →
      ((∀ j < Config.chip.rhoMaxAttempts, collapses j) ∧
        exec (.factor rs1 rd rd2) s =
          .next { s with
            x := (s.x.set rd 0).set rd2 0
            err := 2
            entropyReqs := q + 2 * Config.chip.rhoMaxAttempts }) ∨
      (∃ j < Config.chip.rhoMaxAttempts, (∀ k < j, collapses k) ∧
        ((∃ x c d, seed j = some x ∧ increment j = some c ∧ rhoWalk n c n x x = .found d ∧
            exec (.factor rs1 rd rd2) s =
              .next { s with
                x := (s.x.set rd d).set rd2 (n / d)
                err := 0
                entropyReqs := q + 2 * j + 2 }) ∨
          (seed j = none ∧
            exec (.factor rs1 rd rd2) s = .next { s with err := 1, entropyReqs := q + 2 * j + 1 }) ∨
          (∃ x, seed j = some x ∧ increment j = none ∧
            exec (.factor rs1 rd rd2) s = .next { s with err := 1, entropyReqs := q + 2 * j + 2 })))

/-- What the walk of one attempt returns: the first gcd of `|f^i(x) - f^(2i)(x)|` and `n` that is not 1, with
`f(t) = (t^2 + c) mod n`: a factor if it is below `n`, a collapse if it is `n` (R112, R113). -/
def Obligations.RhoWalkIsFloyd : Prop :=
  ∀ n c x : Nat, 2 ≤ n →
    let f := fun t : Nat => (t * t + c) % n
    let g := fun i => Nat.gcd (Int.natAbs ((f^[i] x : Int) - (f^[2 * i] x : Int))) n
    (∀ d, rhoWalk n c n x x = .found d ↔
      1 < d ∧ d < n ∧ ∃ i, 1 ≤ i ∧ i ≤ n ∧ g i = d ∧ ∀ j, 1 ≤ j → j < i → g j = 1) ∧
    (rhoWalk n c n x x = .collapsed ↔
      ∃ i, 1 ≤ i ∧ i ≤ n ∧ g i = n ∧ ∀ j, 1 ≤ j → j < i → g j = 1)

/-- Every attempt ends after at most `n` rounds: `n` rounds are enough, and more change nothing (R115). -/
def Obligations.RhoWalkEndsWithinN : Prop :=
  ∀ n c x : Nat, 1 ≤ n →
    rhoWalk n c n x x ≠ .unfinished ∧ ∀ rounds, n ≤ rounds → rhoWalk n c rounds x x = rhoWalk n c n x x

/-- The results of FACTOR on an odd `n >= 3`: a pair with `p * q = n` and both factors nontrivial; or the sentinel pair
with InvalidModulus; or EntropySourceUnavailable with the destinations unwritten (R114, R116). -/
def Obligations.FactorResultIsNontrivial : Prop :=
  ∀ (rs1 rd rd2 : RegIdx) (s : State), rd ≠ rd2 → 3 ≤ s.getReg rs1 → s.getReg rs1 % 2 = 1 →
    ∃ k ≤ 2 * Config.chip.rhoMaxAttempts,
      (∃ p q, p * q = s.getReg rs1 ∧ 1 < p ∧ p < s.getReg rs1 ∧ 1 < q ∧ q < s.getReg rs1 ∧
        exec (.factor rs1 rd rd2) s =
          .next { s with x := (s.x.set rd p).set rd2 q, err := 0, entropyReqs := s.entropyReqs + k }) ∨
      exec (.factor rs1 rd rd2) s =
        .next { s with x := (s.x.set rd 0).set rd2 0, err := 2, entropyReqs := s.entropyReqs + k } ∨
      exec (.factor rs1 rd rd2) s = .next { s with err := 1, entropyReqs := s.entropyReqs + k }

/-- FACTOR never succeeds on an odd prime (R117 (d)). -/
def Obligations.FactorOfOddPrimeFails : Prop :=
  ∀ (rs1 rd rd2 : RegIdx) (s : State), rd ≠ rd2 → Nat.Prime (s.getReg rs1) → s.getReg rs1 % 2 = 1 →
    ∃ t, exec (.factor rs1 rd rd2) s = .next t ∧
      ((t.err = 2 ∧ t.x = (s.x.set rd 0).set rd2 0) ∨ (t.err = 1 ∧ t.x = s.x))

/-! ## STATUS and the errors (10_state, 60_exceptions) -/

/-- `ERR` is overwritten by every command and read by none: what it held before makes no difference (R27). -/
def Obligations.ErrIsNotSticky : Prop :=
  ∀ (i : Instr) (s : State) (e : BitVec 4), exec i { s with err := e } = exec i s

/-- PRIME changes only by a PRIMETEST that completes, and no instruction's behaviour depends on it (R28). -/
def Obligations.PrimeIsOnlyPrimetests : Prop :=
  ∀ (i : Instr) (s t : State), exec i s = .next t →
    (t.prime = s.prime ∨ ((∃ rs1 iter sbits, i = .primetest rs1 iter sbits) ∧ t.err = 0)) ∧
    ∀ b, ∃ b', exec i { s with prime := b } = .next { t with prime := b' }

/-- Every instruction's meaning gives its effect on the machine's parameters as a next state: no instruction stops on
any path. The statements below that hold for an effect on every `P` reach `exec` through this one. -/
def Obligations.ExecAnswersTheEffect : Prop :=
  ∀ (i : Instr) (s : State), exec i s = .next (effect Config.chip i s)

/-- A command that raises an error other than InvalidModulus changes `STATUS.ERR` and nothing else, and so does an
illegal word; one that raises InvalidModulus is a FACTOR and writes its result pair besides (R146). The counts of
entropy requests and of unspecified values are the model's. -/
def Obligations.ErrorsArePrecise : Prop :=
  (∀ (P : Params) (i : Instr) (s t : State), t = effect P i s →
    (t.err = 1 ∨ t.err = 3 ∨ t.err = 4 → t = { s with err := t.err, entropyReqs := t.entropyReqs }) ∧
    (t.err = 2 → ∃ rs1 rd rd2 p q, i = .factor rs1 rd rd2 ∧
      t = { s with
        x := (s.x.set rd p).set rd2 q
        err := 2
        entropyReqs := t.entropyReqs
        freeDraws := t.freeDraws })) ∧
  (∀ (w : CmdWord) (e : IllegalWord) (s : State), decode w = .error e → hostIssue w s = .next { s with err := 3 })

/-- OperandRange is raised in exactly two cases: a MODEXP with modulus 0 and a PRIMETEST of 0, and then no register and
no flag is written (R144). -/
def Obligations.OperandRangeExactlyWhen : Prop :=
  ∀ (i : Instr) (s t : State), exec i s = .next t →
    (t.err = 4 ↔
      (∃ rs1 rs2 rs3 rd, i ∈ [Instr.modexp rs1 rs2 rs3 rd, .encrypt rs1 rs2 rs3 rd, .decrypt rs1 rs2 rs3 rd] ∧
        s.getReg rs3 = 0) ∨
      (∃ rs1 iter sbits, i = .primetest rs1 iter sbits ∧ s.getReg rs1 = 0)) ∧
    (t.err = 4 → t = { s with err := 4 })

/-- EntropySourceUnavailable is raised by PRIMETEST and FACTOR only, at a request that answered `fail`, the last one the
command made (R141, R48). -/
def Obligations.EntropyErrorIsAFailedRequest : Prop :=
  ∀ (P : Params) (i : Instr) (s t : State), t = effect P i s → t.err = 1 →
    ((∃ rs1 iter sbits, i = .primetest rs1 iter sbits) ∨ (∃ rs1 rd rd2, i = .factor rs1 rd rd2)) ∧
    s.entropyReqs < t.entropyReqs ∧ P.entropyAnswer (t.entropyReqs - 1) = none ∧
    ∀ q, s.entropyReqs ≤ q → q + 1 < t.entropyReqs → P.entropyAnswer q ≠ none

/-- InvalidModulus is raised by FACTOR only: for `n = 0`, for `n = 1`, and for an odd `n >= 3` all of whose attempts
collapsed (R142). -/
def Obligations.InvalidModulusExactlyWhen : Prop :=
  ∀ (P : Params) (i : Instr) (s t : State), t = effect P i s →
    (t.err = 2 ↔ ∃ rs1 rd rd2, i = .factor rs1 rd rd2 ∧ rd ≠ rd2 ∧
      (s.getReg rs1 = 0 ∨ s.getReg rs1 = 1 ∨
        (3 ≤ s.getReg rs1 ∧ s.getReg rs1 % 2 = 1 ∧ ∀ j < P.rhoMaxAttempts,
          ∃ x c, randRange P 2 (s.getReg rs1 - 1) (s.entropyReqs + 2 * j) = some x ∧
            randRange P 1 (s.getReg rs1 - 1) (s.entropyReqs + 2 * j + 1) = some c ∧
            rhoWalk (s.getReg rs1) c (s.getReg rs1) x x = .collapsed)))

/-! ## The whole machine (10_state) -/

/-- An instruction writes no register but its destinations, and neither the host's script nor its replies (R21). -/
def Obligations.OnlyDestinationsAreWritten : Prop :=
  ∀ (i : Instr) (s t : State), exec i s = .next t →
    (∀ r, r ∉ i.dests → t.getReg r = s.getReg r) ∧ t.pending = s.pending ∧ t.replies = s.replies

/-- An instruction reads no register but its sources: two states that agree on those, and on the free sequences, get the
same error and the same writes (R21, R32). -/
def Obligations.OnlySourcesAreRead : Prop :=
  ∀ (i : Instr) (s₁ s₂ t₁ t₂ : State),
    (∀ r ∈ i.sources, s₁.getReg r = s₂.getReg r) → s₁.entropyReqs = s₂.entropyReqs → s₁.freeDraws = s₂.freeDraws →
    exec i s₁ = .next t₁ → exec i s₂ = .next t₂ →
      t₁.err = t₂.err ∧ t₁.entropyReqs = t₂.entropyReqs ∧ t₁.freeDraws = t₂.freeDraws ∧
      (t₁.prime = t₂.prime ∨ (t₁.prime = s₁.prime ∧ t₂.prime = s₂.prime)) ∧
      ((∀ r ∈ i.dests, t₁.getReg r = t₂.getReg r) ∨ (t₁.x = s₁.x ∧ t₂.x = s₂.x))

/-- The invariant of the machine: every register stays below `2^W` and `ERR` stays in 0 to 4, whatever the host does
(R10, R11, R27). At FACTOR's `n = 0` with 1-bit registers it rests on log entry 10. -/
def Obligations.StepKeepsLegal : Prop :=
  ∀ s t : State, s.Legal Config.chip → step s = .next t → t.Legal Config.chip

/-- The invariant holds after reset (R33). -/
def Obligations.ResetIsLegal : Prop :=
  State.reset.Legal Config.chip

/-- A host script that reads no register before it was written since reset cannot tell what the unwritten registers
hold: two starts that differ only there give the same replies, STATUS and draws (R23, R162). So the value the model
gives a register at reset (log entry 1) is not seen by such a script. -/
def Obligations.InitialisedScriptsIgnoreUnwrittenRegisters : Prop :=
  ∀ (ops : List HostOp) (written : List RegIdx) (s₁ s₂ : State),
    (∀ r ∈ written, s₁.getReg r = s₂.getReg r) → s₂ = { s₁ with x := s₂.x } →
    safeRun Config.chip ops written s₁ = true →
      ∃ t₁ t₂ : State, steps ops.length { s₁ with pending := ops } = some t₁ ∧
        steps ops.length { s₂ with pending := ops } = some t₂ ∧ t₁.pending = [] ∧ t₂ = { t₁ with x := t₂.x }
end

