-- ==== Sys2Proof/Laws/Arith.lean ====
section
/-! SUPPORT. Laws/Arith.lean: what the integer functions of Machine/Arith.lean return. -/

namespace Sys2Proof.Machine

/-! ## Modular exponentiation -/

/-- `bitlen(v)` bits are enough for `v` (00_scope R11). -/
theorem lt_two_pow_bitlen (v : Nat) : v < 2 ^ bitlen v := by
  unfold bitlen
  split
  · next h => simp [h]
  · exact Nat.lt_log2_self

/-- The loop invariant of 40_modexp R82: `r * s^e` is kept modulo `m`. -/
theorem modexpLoop_mod (m : Nat) :
    ∀ turns r s e, e < 2 ^ turns → modexpLoop m turns r s e % m = (r * s ^ e) % m := by
  intro turns
  induction turns with
  | zero => intro r s e h; simp [modexpLoop, show e = 0 by omega]
  | succ k ih =>
    intro r s e h
    have hk : e / 2 < 2 ^ k := by rw [pow_succ] at h; omega
    have hsq : s ^ e = (if e % 2 = 1 then s else 1) * (s * s) ^ (e / 2) := by
      conv_lhs => rw [← Nat.div_add_mod e 2]
      rw [pow_add, pow_mul, pow_two]
      rcases Nat.mod_two_eq_zero_or_one e with h0 | h0 <;> simp [h0, mul_comm]
    rw [modexpLoop, ih _ _ _ hk, hsq, ← Nat.mul_mod_mod, ← Nat.pow_mod, Nat.mul_mod_mod]
    split
    · rw [Nat.mod_mul_mod, mul_assoc]
    · rw [one_mul]

/-- The loop's result is reduced, when it starts reduced. -/
theorem modexpLoop_lt (m : Nat) (hm : 0 < m) :
    ∀ turns r s e, r < m → modexpLoop m turns r s e < m := by
  intro turns
  induction turns with
  | zero => intro r s e h; exact h
  | succ k ih =>
    intro r s e h
    rw [modexpLoop]
    apply ih
    split
    · exact Nat.mod_lt _ hm
    · exact h

/-- MODEXPVAL is the value of 40_modexp R81. -/
theorem modexpVal_eq (b e m : Nat) (hm : m ≠ 0) :
    modexpVal b e m = if b % m = 0 then 0 else b ^ e % m := by
  unfold modexpVal
  split
  · rfl
  · next hb =>
    have hm1 : 1 < m := by
      rcases Nat.lt_or_ge 1 m with h | h
      · exact h
      · exact absurd (show b % m = 0 by rw [show m = 1 by omega]; exact Nat.mod_one b) hb
    rw [← Nat.mod_eq_of_lt (modexpLoop_lt m (by omega) (bitlen e) 1 (b % m) e hm1),
      modexpLoop_mod m _ _ _ _ (lt_two_pow_bitlen e), one_mul, ← Nat.pow_mod]

/-- MODEXPVAL is below the modulus (40_modexp R81). -/
theorem modexpVal_lt (b e m : Nat) (hm : m ≠ 0) : modexpVal b e m < m := by
  rw [modexpVal_eq b e m hm]
  split
  · omega
  · exact Nat.mod_lt _ (Nat.pos_of_ne_zero hm)

/-! ## The Fermat check -/

/-- The witness is neither 0 nor `n`: the special case of MODEXP never applies to it (42_primetest R101, R102). -/
theorem witness_bounds (n r : Nat) (hn : 2 ≤ n) : 1 ≤ witness n r ∧ witness n r < n := by
  have := Nat.mod_lt r (show n - 1 > 0 by omega)
  unfold witness
  omega

/-- On a witness in range, the check is `a^(n-1) mod n = 1` exactly (42_primetest R101). -/
theorem fermatPasses_iff (n a : Nat) (hn : 2 ≤ n) (ha : 1 ≤ a ∧ a < n) :
    fermatPasses n a = true ↔ a ^ (n - 1) % n = 1 := by
  have : a % n ≠ 0 := by rw [Nat.mod_eq_of_lt ha.2]; omega
  simp [fermatPasses, modexpVal_eq a (n - 1) n (by omega), this]

/-! ## Modular inverse -/

/-- The loop invariant of 41_modinv_gcd R92: from `r0 ≡ a t0` and `r1 ≡ a t1` modulo `m` it reaches
`gcd(r0, r1) ≡ a t`. -/
theorem inverseLoop_spec (a m : Int) :
    ∀ (turns r0 r1 : Nat) (t0 t1 : Int), r1 ≤ turns → (r0 : Int) ≡ a * t0 [ZMOD m] → (r1 : Int) ≡ a * t1 [ZMOD m] →
      (inverseLoop turns r0 r1 t0 t1).1 = Nat.gcd r0 r1 ∧
        (Nat.gcd r0 r1 : Int) ≡ a * (inverseLoop turns r0 r1 t0 t1).2 [ZMOD m] := by
  intro turns
  induction turns with
  | zero =>
    intro r0 r1 t0 t1 h h0 _
    obtain rfl : r1 = 0 := by omega
    exact ⟨by simp [inverseLoop], by simpa [inverseLoop] using h0⟩
  | succ k ih =>
    intro r0 r1 t0 t1 h h0 h1
    rw [inverseLoop]
    split
    · next hz => subst hz; exact ⟨by simp, by simpa using h0⟩
    · next hz =>
      have hmod : r0 - r0 / r1 * r1 = r0 % r1 := by
        have := Nat.div_add_mod r0 r1
        rw [Nat.mul_comm] at this
        omega
      have hgcd : Nat.gcd r1 (r0 % r1) = Nat.gcd r0 r1 := by
        rw [Nat.gcd_comm r1, ← Nat.gcd_rec, Nat.gcd_comm]
      have hlt := Nat.mod_lt r0 (Nat.pos_of_ne_zero hz)
      have hr : ((r0 % r1 : Nat) : Int) ≡ a * (t0 - (r0 / r1 : Nat) * t1) [ZMOD m] := by
        have e : ((r0 % r1 : Nat) : Int) = r0 - (r0 / r1 : Nat) * r1 := by
          have := Int.emod_add_mul_ediv (r0 : Int) r1
          push_cast
          linarith
        rw [e, show a * (t0 - (r0 / r1 : Nat) * t1) = a * t0 - (r0 / r1 : Nat) * (a * t1) by ring]
        exact h0.sub (h1.mul_left _)
      rw [hmod, ← hgcd]
      exact ih r1 (r0 % r1) t1 _ (by omega) h1 hr

/-- The inverse's value is below the modulus (41_modinv_gcd R91). -/
theorem inverseVal_lt (a m : Nat) (hm : m ≠ 0) : inverseVal a m < m := by
  have hpos : (0 : Int) < m := by omega
  have h0 := Int.emod_nonneg (inverseLoop m m (a % m) 0 1).2 (show (m : Int) ≠ 0 by omega)
  have h1 := Int.emod_lt_of_pos (inverseLoop m m (a % m) 0 1).2 hpos
  unfold inverseVal
  omega

/-- The value `v` of R92 has `a v ≡ gcd(a, m) (mod m)`; with `gcd(a, m) = 1` it is the inverse of R91. -/
theorem inverseVal_mul (a m : Nat) (hm : m ≠ 0) : (a * inverseVal a m) % m = Nat.gcd a m % m := by
  have hpos : (0 : Int) < m := by omega
  have hlt := Nat.mod_lt a (Nat.pos_of_ne_zero hm)
  have h0 : ((m : Nat) : Int) ≡ a * 0 [ZMOD m] := by simp [Int.ModEq]
  have h1 : ((a % m : Nat) : Int) ≡ a * 1 [ZMOD m] := by
    rw [mul_one]; push_cast; exact Int.mod_modEq _ _
  have hspec := (inverseLoop_spec a m m m (a % m) 0 1 (by omega) h0 h1).2
  have hg : Nat.gcd m (a % m) = Nat.gcd a m := by rw [Nat.gcd_comm m, ← Nat.gcd_rec, Nat.gcd_comm]
  rw [hg] at hspec
  have hv : ((inverseVal a m : Nat) : Int) = (inverseLoop m m (a % m) 0 1).2 % m := by
    unfold inverseVal
    exact Int.toNat_of_nonneg (Int.emod_nonneg _ (by omega))
  have : ((a * inverseVal a m : Nat) : Int) ≡ (Nat.gcd a m : Nat) [ZMOD m] := by
    push_cast
    rw [hv]
    exact ((Int.mod_modEq _ _).mul_left _).trans hspec.symm
  exact (Int.natCast_modEq_iff.mp this)

/-! ## Pollard's rho -/

/-- A factor that the walk reports is a nontrivial divisor (43_factor R112, R114). -/
theorem rhoWalk_found (n c : Nat) :
    ∀ rounds slow fast d, rhoWalk n c rounds slow fast = .found d → 1 < d ∧ d < n ∧ d ∣ n := by
  intro rounds
  induction rounds with
  | zero => intro slow fast d h; simp [rhoWalk] at h
  | succ k ih =>
    intro slow fast d h
    simp only [rhoWalk] at h
    split at h
    · next hd =>
      obtain rfl : _ = d := by simpa using h
      exact ⟨hd.1, hd.2, Nat.gcd_dvd_right _ _⟩
    · split at h
      · cases h
      · exact ih _ _ _ h

end Sys2Proof.Machine
end

