-- ==== Sys2Proof/Laws/State.lean ====
section
/-! SUPPORT. Laws/State.lean: one lemma per field per update, and the register file's read-after-write laws, so that
no later proof unfolds a record update. -/

namespace Sys2Proof.Machine

variable (s : State) (i j : RegIdx) (v q : Nat) (k : ErrKind) (b : Bool) (P : Params)

/-! ## setReg -/

@[simp] theorem State.setReg_x : (s.setReg i v).x = s.x.set i v := rfl
@[simp] theorem State.setReg_err : (s.setReg i v).err = s.err := rfl
@[simp] theorem State.setReg_prime : (s.setReg i v).prime = s.prime := rfl
@[simp] theorem State.setReg_pending : (s.setReg i v).pending = s.pending := rfl
@[simp] theorem State.setReg_replies : (s.setReg i v).replies = s.replies := rfl
@[simp] theorem State.setReg_entropyReqs : (s.setReg i v).entropyReqs = s.entropyReqs := rfl
@[simp] theorem State.setReg_freeDraws : (s.setReg i v).freeDraws = s.freeDraws := rfl

/-! ## raise, illegalCommand and complete -/

@[simp] theorem State.raise_x : (s.raise k).x = s.x := rfl
@[simp] theorem State.raise_err : (s.raise k).err = k.code := rfl
@[simp] theorem State.raise_prime : (s.raise k).prime = s.prime := rfl
@[simp] theorem State.raise_pending : (s.raise k).pending = s.pending := rfl
@[simp] theorem State.raise_replies : (s.raise k).replies = s.replies := rfl
@[simp] theorem State.raise_entropyReqs : (s.raise k).entropyReqs = s.entropyReqs := rfl
@[simp] theorem State.raise_freeDraws : (s.raise k).freeDraws = s.freeDraws := rfl

@[simp] theorem State.illegalCommand_eq : s.illegalCommand = s.raise .illegalCommand := rfl

@[simp] theorem State.complete_x : s.complete.x = s.x := rfl
@[simp] theorem State.complete_err : s.complete.err = 0 := rfl
@[simp] theorem State.complete_prime : s.complete.prime = s.prime := rfl
@[simp] theorem State.complete_pending : s.complete.pending = s.pending := rfl
@[simp] theorem State.complete_replies : s.complete.replies = s.replies := rfl
@[simp] theorem State.complete_entropyReqs : s.complete.entropyReqs = s.entropyReqs := rfl
@[simp] theorem State.complete_freeDraws : s.complete.freeDraws = s.freeDraws := rfl

/-! ## afterRequests -/

@[simp] theorem State.afterRequests_x : (s.afterRequests q).x = s.x := rfl
@[simp] theorem State.afterRequests_err : (s.afterRequests q).err = s.err := rfl
@[simp] theorem State.afterRequests_prime : (s.afterRequests q).prime = s.prime := rfl
@[simp] theorem State.afterRequests_pending : (s.afterRequests q).pending = s.pending := rfl
@[simp] theorem State.afterRequests_replies : (s.afterRequests q).replies = s.replies := rfl
@[simp] theorem State.afterRequests_entropyReqs : (s.afterRequests q).entropyReqs = q := rfl
@[simp] theorem State.afterRequests_freeDraws : (s.afterRequests q).freeDraws = s.freeDraws := rfl

/-! ## setPrime -/

@[simp] theorem State.setPrime_x : (s.setPrime b).x = s.x := rfl
@[simp] theorem State.setPrime_err : (s.setPrime b).err = s.err := rfl
@[simp] theorem State.setPrime_prime : (s.setPrime b).prime = b := rfl
@[simp] theorem State.setPrime_pending : (s.setPrime b).pending = s.pending := rfl
@[simp] theorem State.setPrime_replies : (s.setPrime b).replies = s.replies := rfl
@[simp] theorem State.setPrime_entropyReqs : (s.setPrime b).entropyReqs = s.entropyReqs := rfl
@[simp] theorem State.setPrime_freeDraws : (s.setPrime b).freeDraws = s.freeDraws := rfl

/-! ## drawFree -/

@[simp] theorem State.drawFree_value : (s.drawFree P).1 = P.unspecifiedValue s.freeDraws := rfl
@[simp] theorem State.drawFree_x : (s.drawFree P).2.x = s.x := rfl
@[simp] theorem State.drawFree_err : (s.drawFree P).2.err = s.err := rfl
@[simp] theorem State.drawFree_prime : (s.drawFree P).2.prime = s.prime := rfl
@[simp] theorem State.drawFree_pending : (s.drawFree P).2.pending = s.pending := rfl
@[simp] theorem State.drawFree_replies : (s.drawFree P).2.replies = s.replies := rfl
@[simp] theorem State.drawFree_entropyReqs : (s.drawFree P).2.entropyReqs = s.entropyReqs := rfl
@[simp] theorem State.drawFree_freeDraws : (s.drawFree P).2.freeDraws = s.freeDraws + 1 := rfl

/-! ## setRegFitted -/

@[simp] theorem State.setRegFitted_err : (s.setRegFitted P i v).err = s.err := by
  unfold State.setRegFitted; split <;> rfl
@[simp] theorem State.setRegFitted_prime : (s.setRegFitted P i v).prime = s.prime := by
  unfold State.setRegFitted; split <;> rfl
@[simp] theorem State.setRegFitted_pending : (s.setRegFitted P i v).pending = s.pending := by
  unfold State.setRegFitted; split <;> rfl
@[simp] theorem State.setRegFitted_replies : (s.setRegFitted P i v).replies = s.replies := by
  unfold State.setRegFitted; split <;> rfl
@[simp] theorem State.setRegFitted_entropyReqs : (s.setRegFitted P i v).entropyReqs = s.entropyReqs := by
  unfold State.setRegFitted; split <;> rfl

/-! ## Reading registers -/

@[simp] theorem State.source_eq : s.source i = s.getReg i := rfl

/-- A read after a write to the same register gives the value written. -/
@[simp] theorem State.getReg_setReg_self : (s.setReg i v).getReg i = v := by
  simp [State.getReg, State.setReg]

/-- A write leaves every other register alone. -/
theorem State.getReg_setReg_of_ne (h : j ≠ i) : (s.setReg i v).getReg j = s.getReg j := by
  have h' : (i : Nat) ≠ (j : Nat) := fun e => h (Fin.ext e.symm)
  simp [State.getReg, State.setReg, h']

/-- Both cases of a read after a write. -/
theorem State.getReg_setReg : (s.setReg i v).getReg j = if j = i then v else s.getReg j := by
  split
  · next h => subst h; exact s.getReg_setReg_self j v
  · next h => exact s.getReg_setReg_of_ne i j v h

@[simp] theorem State.getReg_raise : (s.raise k).getReg i = s.getReg i := rfl
@[simp] theorem State.getReg_complete : s.complete.getReg i = s.getReg i := rfl
@[simp] theorem State.getReg_afterRequests : (s.afterRequests q).getReg i = s.getReg i := rfl
@[simp] theorem State.getReg_setPrime : (s.setPrime b).getReg i = s.getReg i := rfl
@[simp] theorem State.getReg_drawFree : (s.drawFree P).2.getReg i = s.getReg i := rfl

/-- Two states with equal fields are equal. -/
theorem State.ext_fields {s t : State} (hx : s.x = t.x) (he : s.err = t.err) (hp : s.prime = t.prime)
    (hq : s.pending = t.pending) (hr : s.replies = t.replies) (hn : s.entropyReqs = t.entropyReqs)
    (hf : s.freeDraws = t.freeDraws) : s = t := by
  cases s; cases t; simp_all

end Sys2Proof.Machine
end

