-- ==== Sys2Proof/Laws/Ops.lean ====
section
/-! SUPPORT. Laws/Ops.lean: for each shared operation, once, everything it can do. -/

namespace Sys2Proof.Machine

/-! ## Values of W bits -/

/-- 0 stands in every register, whatever `W` is (00_scope R7, R10). -/
theorem fits_zero (P : Params) : P.fits 0 = true := by
  unfold Params.fits
  split <;> simp

/-- What is not above a value that fits, fits. -/
theorem fits_of_le {P : Params} {u v : Nat} (h : u ≤ v) (hv : P.fits v = true) : P.fits u = true := by
  unfold Params.fits at *
  cases hw : P.width with
  | none => rfl
  | some w => rw [hw] at hv; simp only [decide_eq_true_eq] at *; exact Nat.lt_of_le_of_lt h hv

/-- A clipped value fits. -/
theorem clip_fits (P : Params) (v : Nat) : P.fits (P.clip v) = true := by
  unfold Params.fits Params.clip
  split
  · rfl
  · next w h => simp only [decide_eq_true_eq]; exact Nat.mod_lt _ (Nat.two_pow_pos w)

/-- `setRegFitted` writes the value when it fits; otherwise one unspecified value that fits is drawn. -/
theorem State.setRegFitted_cases (P : Params) (s : State) (i : RegIdx) (v : Nat) :
    (P.fits v = true ∧ s.setRegFitted P i v = s.setReg i v) ∨
      (P.fits v = false ∧ ∃ u, P.fits u = true ∧
        s.setRegFitted P i v = { s with x := s.x.set i u, freeDraws := s.freeDraws + 1 }) := by
  unfold State.setRegFitted
  split
  · next h => exact .inl ⟨h, rfl⟩
  · next h => exact .inr ⟨by simpa using h, _, clip_fits P _, rfl⟩

/-! ## What exec answers

Every meaning is one effect, and gives it as a next state. -/

theorem exec_eq (i : Instr) (s : State) : exec i s = .next (effect Config.chip i s) := by
  cases i <;> rfl

theorem exec_next {i : Instr} {s t : State} (h : exec i s = .next t) : t = effect Config.chip i s := by
  rw [exec_eq] at h; exact (Host.Outcome.next.inj h).symm

/-! ## The trials of PRIMETEST (42_primetest R101) -/

/-- Every trial from request `q` on passed, so far as `k` trials. -/
def trialsPass (P : Params) (n sbits q k : Nat) : Prop :=
  ∀ j < k, ∃ r, randBits P sbits (q + j) = some r ∧ fermatPasses n (witness n r) = true

/-- The three ways the trials end: all pass; the first that does not has a failing witness; or it gets no bits. -/
theorem runTrials_cases (P : Params) (n sbits : Nat) : ∀ trials q,
    (trialsPass P n sbits q trials ∧ runTrials P n sbits trials q = (.allPassed, q + trials)) ∨
      ∃ j < trials, trialsPass P n sbits q j ∧
        ((∃ r, randBits P sbits (q + j) = some r ∧ fermatPasses n (witness n r) = false ∧
            runTrials P n sbits trials q = (.witnessFailed, q + j + 1)) ∨
          (randBits P sbits (q + j) = none ∧ runTrials P n sbits trials q = (.entropyFailed, q + j + 1))) := by
  intro trials
  induction trials with
  | zero => intro q; exact .inl ⟨fun j h => absurd h (by omega), rfl⟩
  | succ k ih =>
    intro q
    have none_before : trialsPass P n sbits q 0 := fun j h => absurd h (by omega)
    cases hr : randBits P sbits q with
    | none => exact .inr ⟨0, by omega, none_before, .inr ⟨hr, by simp [runTrials, hr]⟩⟩
    | some r =>
      cases hf : fermatPasses n (witness n r) with
      | false => exact .inr ⟨0, by omega, none_before, .inl ⟨r, hr, hf, by simp [runTrials, hr, hf]⟩⟩
      | true =>
        have hrun : runTrials P n sbits (k + 1) q = runTrials P n sbits k (q + 1) := by simp [runTrials, hr, hf]
        have shift : ∀ j, trialsPass P n sbits (q + 1) j → trialsPass P n sbits q (j + 1) := by
          intro j h i hi
          rcases i with _ | i
          · exact ⟨r, hr, hf⟩
          · simpa [Nat.add_assoc, Nat.add_comm 1] using h i (by omega)
        rw [hrun]
        rcases ih (q + 1) with ⟨h, e⟩ | ⟨j, hj, h, hend⟩
        · exact .inl ⟨shift k h, by rw [e]; congr 1; omega⟩
        · refine .inr ⟨j + 1, by omega, shift j h, ?_⟩
          simpa [Nat.add_assoc, Nat.add_comm 1] using hend

/-! ## The attempts of FACTOR (43_factor R111, R112) -/

/-- An attempt gets no seed, or no increment, or walks from a seed and an increment it drew. -/
theorem rhoAttempt_cases (P : Params) (n q : Nat) :
    (randRange P 2 (n - 1) q = none ∧ rhoAttempt P n q = (.entropyFailed, q + 1)) ∨
      (∃ x, randRange P 2 (n - 1) q = some x ∧ randRange P 1 (n - 1) (q + 1) = none ∧
        rhoAttempt P n q = (.entropyFailed, q + 2)) ∨
      (∃ x c, randRange P 2 (n - 1) q = some x ∧ randRange P 1 (n - 1) (q + 1) = some c ∧
        rhoAttempt P n q = (.walked (rhoWalk n c n x x), q + 2)) := by
  unfold rhoAttempt
  split
  · next h => exact .inl ⟨h, rfl⟩
  · next x h =>
    split
    · next h' => exact .inr (.inl ⟨x, h, h', rfl⟩)
    · next c h' => exact .inr (.inr ⟨x, c, h, h', rfl⟩)

/-- The attempt at request `q` drew a seed and an increment and came to no factor. -/
def attemptCollapses (P : Params) (n q : Nat) : Prop :=
  ∃ x c, randRange P 2 (n - 1) q = some x ∧ randRange P 1 (n - 1) (q + 1) = some c ∧
    ∀ d, rhoWalk n c n x x ≠ .found d

/-- The ways the attempts end: all collapse; or after some collapsed ones, one finds a factor, or gets no seed, or
no increment. -/
theorem rhoSearch_cases (P : Params) (n : Nat) : ∀ attempts q,
    ((∀ j < attempts, attemptCollapses P n (q + 2 * j)) ∧
        rhoSearch P n attempts q = (.exhausted, q + 2 * attempts)) ∨
      ∃ j < attempts, (∀ i < j, attemptCollapses P n (q + 2 * i)) ∧
        ((∃ x c d, randRange P 2 (n - 1) (q + 2 * j) = some x ∧ randRange P 1 (n - 1) (q + 2 * j + 1) = some c ∧
            rhoWalk n c n x x = .found d ∧ rhoSearch P n attempts q = (.found d, q + 2 * j + 2)) ∨
          (randRange P 2 (n - 1) (q + 2 * j) = none ∧
            rhoSearch P n attempts q = (.entropyFailed, q + 2 * j + 1)) ∨
          (∃ x, randRange P 2 (n - 1) (q + 2 * j) = some x ∧ randRange P 1 (n - 1) (q + 2 * j + 1) = none ∧
            rhoSearch P n attempts q = (.entropyFailed, q + 2 * j + 2))) := by
  intro attempts
  induction attempts with
  | zero => intro q; exact .inl ⟨fun j h => absurd h (by omega), rfl⟩
  | succ k ih =>
    intro q
    rcases rhoAttempt_cases P n q with ⟨hx, ha⟩ | ⟨x, hx, hc, ha⟩ | ⟨x, c, hx, hc, ha⟩
    · exact .inr ⟨0, by omega, fun i h => absurd h (by omega), .inr (.inl ⟨hx, by simp [rhoSearch, ha]⟩)⟩
    · exact .inr ⟨0, by omega, fun i h => absurd h (by omega), .inr (.inr ⟨x, hx, hc, by simp [rhoSearch, ha]⟩)⟩
    · by_cases hw : ∃ d, rhoWalk n c n x x = .found d
      · obtain ⟨d, hw⟩ := hw
        exact .inr ⟨0, by omega, fun i h => absurd h (by omega),
          .inl ⟨x, c, d, hx, hc, hw, by simp [rhoSearch, ha, hw]⟩⟩
      · have hcol : attemptCollapses P n q := ⟨x, c, hx, hc, fun d e => hw ⟨d, e⟩⟩
        have hrun : rhoSearch P n (k + 1) q = rhoSearch P n k (q + 2) := by
          cases hwe : rhoWalk n c n x x with
          | found d => exact absurd ⟨d, hwe⟩ hw
          | collapsed => simp [rhoSearch, ha, hwe]
          | unfinished => simp [rhoSearch, ha, hwe]
        have shift : ∀ j, (∀ i < j, attemptCollapses P n (q + 2 + 2 * i)) →
            ∀ i < j + 1, attemptCollapses P n (q + 2 * i) := by
          intro j h i hi
          rcases i with _ | i
          · exact hcol
          · rw [show q + 2 * (i + 1) = q + 2 + 2 * i by ring]; exact h i (by omega)
        rw [hrun]
        rcases ih (q + 2) with ⟨h, e⟩ | ⟨j, hj, h, hend⟩
        · exact .inl ⟨shift k h, by rw [e]; congr 1; ring⟩
        · refine .inr ⟨j + 1, by omega, shift j h, ?_⟩
          rw [show q + 2 * (j + 1) = q + 2 + 2 * j by ring]
          exact hend

/-! ## The host port -/

/-- With a transaction pending, a turn performs it and takes it off the script. -/
theorem hostTurn_cons (P : Params) {s : State} {op : HostOp} {rest : List HostOp} (h : s.pending = op :: rest) :
    hostTurn P s = transact P op { s with pending := rest } := by
  unfold hostTurn; rw [h]

/-- Every way a turn can give a next state (20_memory R41; 60_exceptions R153). -/
theorem hostTurn_next (P : Params) {s t : State} (h : hostTurn P s = .next t) :
    t = s ∨ ∃ op rest, s.pending = op :: rest ∧
      ((∃ i v, op = .writeReg i v ∧ P.fits v = true ∧ t = State.setReg { s with pending := rest } i v) ∨
        (∃ i, op = .readReg i ∧ t = hostReadReg i { s with pending := rest }) ∨
        (op = .readStatus ∧ t = hostReadStatus { s with pending := rest }) ∨
        (∃ w i, op = .issue w ∧ decode w = .ok i ∧ exec i { s with pending := rest } = .next t) ∨
        (∃ w e, op = .issue w ∧ decode w = .error e ∧ t = State.illegalCommand { s with pending := rest }) ∨
        (op = .reset ∧ t = hostReset P { s with pending := rest })) := by
  unfold hostTurn at h
  split at h
  · exact .inl (Host.Outcome.next.inj h).symm
  · next op rest hp =>
    refine .inr ⟨op, rest, hp, ?_⟩
    cases op with
    | writeReg i v =>
      simp only [transact, hostWriteReg] at h
      split at h
      · next hv => exact .inl ⟨i, v, rfl, hv, (Host.Outcome.next.inj h).symm⟩
      · cases h
    | readReg i => exact .inr (.inl ⟨i, rfl, (Host.Outcome.next.inj h).symm⟩)
    | readStatus => exact .inr (.inr (.inl ⟨rfl, (Host.Outcome.next.inj h).symm⟩))
    | issue w =>
      simp only [transact, hostIssue] at h
      split at h
      · next i hd => exact .inr (.inr (.inr (.inl ⟨w, i, rfl, hd, h⟩)))
      · next e hd => exact .inr (.inr (.inr (.inr (.inl ⟨w, e, rfl, hd, (Host.Outcome.next.inj h).symm⟩))))
    | reset => exact .inr (.inr (.inr (.inr (.inr ⟨rfl, (Host.Outcome.next.inj h).symm⟩))))

end Sys2Proof.Machine
end

