-- ==== Sys2Proof/Laws/Agree.lean ====
section
/-! SUPPORT. Laws/Agree.lean: everything an instruction can depend on and everything it can write, said once for all
instructions; frames, precision of errors and noninterference follow from it. -/

namespace Sys2Proof.Machine

/-- `s` after these register writes, this error code, this write of PRIME if any, and these two positions. -/
def State.applied (s : State) (writes : List (RegIdx × Nat)) (e : BitVec 4) (flag : Option Bool) (q d : Nat) :
    State :=
  { s with
    x := writes.foldl (fun x w => x.set w.1 w.2) s.x
    err := e
    prime := flag.getD s.prime
    entropyReqs := q
    freeDraws := d }

/-- A register that no write names keeps its value. -/
theorem State.getReg_applied_of_not_mem (s : State) (writes : List (RegIdx × Nat)) (e : BitVec 4) (flag : Option Bool)
    (q d : Nat) (r : RegIdx) (h : r ∉ writes.map Prod.fst) : (s.applied writes e flag q d).getReg r = s.getReg r := by
  have all : ∀ (ws : List (RegIdx × Nat)) (t : State), r ∉ ws.map Prod.fst →
      (ws.foldl (fun x w => x.set w.1 w.2) t.x)[r] = t.x[r] := by
    intro ws
    induction ws with
    | nil => intro t _; rfl
    | cons w ws ih =>
      intro t h
      simp only [List.map_cons, List.mem_cons, not_or] at h
      exact (ih (t.setReg w.1 w.2) h.2).trans (t.getReg_setReg_of_ne w.1 r w.2 h.1)
  exact all writes s h

/-- The same writes leave two states equal in every register that a write names or in which they were equal. -/
theorem State.getReg_applied_congr (s s' : State) (writes : List (RegIdx × Nat)) (e : BitVec 4) (flag : Option Bool)
    (q d : Nat) (r : RegIdx) (h : r ∈ writes.map Prod.fst ∨ s.getReg r = s'.getReg r) :
    (s.applied writes e flag q d).getReg r = (s'.applied writes e flag q d).getReg r := by
  have all : ∀ (ws : List (RegIdx × Nat)) (t t' : State), (r ∈ ws.map Prod.fst ∨ t.getReg r = t'.getReg r) →
      (ws.foldl (fun x w => x.set w.1 w.2) t.x)[r] = (ws.foldl (fun x w => x.set w.1 w.2) t'.x)[r] := by
    intro ws
    induction ws with
    | nil => intro t t' h; simpa [State.getReg] using h
    | cons w ws ih =>
      intro t t' h
      refine ih (t.setReg w.1 w.2) (t'.setReg w.1 w.2) ?_
      by_cases hr : r = w.1
      · subst hr; simp
      · rw [t.getReg_setReg_of_ne _ _ _ hr, t'.getReg_setReg_of_ne _ _ _ hr]
        simpa [hr] using h
  exact all writes s s' h

/-- What an instruction does depends on its sources and the positions in the free sequences only: two states that
agree on those get the same writes, all to destinations or none, the same error, and the same write of PRIME,
which only a PRIMETEST that completes makes (10_state R21, R27, R28, R34). -/
theorem effect_agree (P : Params) (i : Instr) (s₁ s₂ : State)
    (hs : ∀ r ∈ i.sources, s₁.source r = s₂.source r) (hq : s₁.entropyReqs = s₂.entropyReqs)
    (hd : s₁.freeDraws = s₂.freeDraws) :
    ∃ writes e flag q d, writes.map Prod.fst = (if destsWritten e then i.dests else []) ∧
      (flag = none ∨ e = 0 ∧ ∃ rs1 iter sbits, i = .primetest rs1 iter sbits) ∧
      effect P i s₁ = s₁.applied writes e flag q d ∧ effect P i s₂ = s₂.applied writes e flag q d := by
  have modexp : ∀ rs1 rs2 rs3 rd,
      s₁.source rs1 = s₂.source rs1 ∧ s₁.source rs2 = s₂.source rs2 ∧ s₁.source rs3 = s₂.source rs3 →
        ∃ writes e q d, writes.map Prod.fst = (if destsWritten e then [rd] else []) ∧
          modexpCmd rs1 rs2 rs3 rd s₁ = s₁.applied writes e none q d ∧
          modexpCmd rs1 rs2 rs3 rd s₂ = s₂.applied writes e none q d := by
    rintro rs1 rs2 rs3 rd ⟨h1, h2, h3⟩
    unfold modexpCmd
    rw [h1, h2, h3]
    split
    · exact ⟨[], 4, s₁.entropyReqs, s₁.freeDraws, rfl, rfl, by rw [hq, hd]; rfl⟩
    · exact ⟨[(rd, _)], 0, s₁.entropyReqs, s₁.freeDraws, rfl, rfl, by rw [hq, hd]; rfl⟩
  cases i with
  | modexp rs1 rs2 rs3 rd =>
    obtain ⟨ws, e, q, d, h, h'⟩ := modexp rs1 rs2 rs3 rd (by simpa [Instr.sources] using hs)
    exact ⟨ws, e, none, q, d, h, .inl rfl, h'⟩
  | encrypt rs1 rs2 rs3 rd =>
    obtain ⟨ws, e, q, d, h, h'⟩ := modexp rs1 rs2 rs3 rd (by simpa [Instr.sources] using hs)
    exact ⟨ws, e, none, q, d, h, .inl rfl, h'⟩
  | decrypt rs1 rs2 rs3 rd =>
    obtain ⟨ws, e, q, d, h, h'⟩ := modexp rs1 rs2 rs3 rd (by simpa [Instr.sources] using hs)
    exact ⟨ws, e, none, q, d, h, .inl rfl, h'⟩
  | modinv rs1 rs2 rd =>
    have h1 := hs rs1 (by simp [Instr.sources])
    have h2 := hs rs2 (by simp [Instr.sources])
    simp only [effect]
    unfold modinvCmd State.drawFree
    rw [h1, h2, hd]
    split
    · exact ⟨[(rd, _)], 0, none, s₁.entropyReqs, s₁.freeDraws, rfl, .inl rfl, rfl, by rw [hq, hd]; rfl⟩
    · split
      · exact ⟨[(rd, _)], 0, none, s₁.entropyReqs, s₁.freeDraws, rfl, .inl rfl, rfl, by rw [hq, hd]; rfl⟩
      · exact ⟨[(rd, _)], 0, none, s₁.entropyReqs, s₂.freeDraws + 1, rfl, .inl rfl, rfl, by rw [hq]; rfl⟩
  | gcd rs1 rs2 rd =>
    have h1 := hs rs1 (by simp [Instr.sources])
    have h2 := hs rs2 (by simp [Instr.sources])
    simp only [effect]
    unfold gcdCmd
    rw [h1, h2]
    exact ⟨[(rd, _)], 0, none, s₁.entropyReqs, s₁.freeDraws, rfl, .inl rfl, rfl, by rw [hq, hd]; rfl⟩
  | primetest rs1 iter sbits =>
    have h1 := hs rs1 (by simp [Instr.sources])
    simp only [effect]
    unfold primetestCmd
    rw [h1]
    split
    · exact ⟨[], 4, none, s₁.entropyReqs, s₁.freeDraws, rfl, .inl rfl, rfl, by rw [hq, hd]; rfl⟩
    · split
      · exact ⟨[], 0, some false, s₁.entropyReqs, s₁.freeDraws, rfl, .inr ⟨rfl, _, _, _, rfl⟩, rfl, by rw [hq, hd]; rfl⟩
      · rw [hq]
        rcases runTrials P (s₂.source rs1) (sampleBits sbits) (trialCount iter) s₂.entropyReqs with ⟨_ | _ | _, q⟩
        · exact ⟨[], 0, some true, q, s₁.freeDraws, rfl, .inr ⟨rfl, _, _, _, rfl⟩, rfl, by rw [hd]; rfl⟩
        · exact ⟨[], 0, some false, q, s₁.freeDraws, rfl, .inr ⟨rfl, _, _, _, rfl⟩, rfl, by rw [hd]; rfl⟩
        · exact ⟨[], 1, none, q, s₁.freeDraws, rfl, .inl rfl, rfl, by rw [hd]; rfl⟩
  | factor rs1 rd rd2 =>
    have h1 := hs rs1 (by simp [Instr.sources])
    have succeed : ∀ (t₁ t₂ : State) (p c : Nat), t₁.freeDraws = t₂.freeDraws → t₁.entropyReqs = t₂.entropyReqs →
        ∃ writes e q d, writes.map Prod.fst = (if destsWritten e then [rd, rd2] else []) ∧
          t₁.factorSucceed P rd rd2 p c = t₁.applied writes e none q d ∧
          t₂.factorSucceed P rd rd2 p c = t₂.applied writes e none q d := by
      intro t₁ t₂ p c hd hq
      unfold State.factorSucceed State.setRegFitted State.drawFree
      rw [hd]
      split
      · split
        · exact ⟨[(rd, _), (rd2, _)], 2, t₁.entropyReqs, t₁.freeDraws, rfl, rfl, by rw [hq, hd]; rfl⟩
        · exact ⟨[(rd, _), (rd2, _)], 2, t₁.entropyReqs, t₂.freeDraws + 1, rfl, rfl, by rw [hq]; rfl⟩
      · exact ⟨[(rd, _), (rd2, _)], 0, t₁.entropyReqs, t₁.freeDraws, rfl, rfl, by rw [hq, hd]; rfl⟩
    simp only [effect]
    unfold factorCmd
    rw [h1]
    split
    · exact ⟨[], 3, none, s₁.entropyReqs, s₁.freeDraws, rfl, .inl rfl, rfl, by rw [hq, hd]; rfl⟩
    · split
      · exact ⟨[(rd, 0), (rd2, 0)], 2, none, s₁.entropyReqs, s₁.freeDraws, rfl, .inl rfl, rfl, by rw [hq, hd]; rfl⟩
      · split
        · obtain ⟨ws, e, q, d, h, h'⟩ := succeed s₁ s₂ 2 (s₂.source rs1 / 2) hd hq
          exact ⟨ws, e, none, q, d, h, .inl rfl, h'⟩
        · rw [hq]
          rcases rhoSearch P (s₂.source rs1) P.rhoMaxAttempts s₂.entropyReqs with ⟨f | _ | _, q⟩
          · obtain ⟨ws, e, q', d, h, h'⟩ :=
              succeed (s₁.afterRequests q) (s₂.afterRequests q) f (s₂.source rs1 / f) hd rfl
            exact ⟨ws, e, none, q', d, h, .inl rfl, h'⟩
          · exact ⟨[(rd, 0), (rd2, 0)], 2, none, q, s₁.freeDraws, rfl, .inl rfl, rfl, by rw [hd]; rfl⟩
          · exact ⟨[], 1, none, q, s₁.freeDraws, rfl, .inl rfl, rfl, by rw [hd]; rfl⟩

end Sys2Proof.Machine
end

