-- ==== Sys2Proof/Laws/Commands.lean ====
section
/-! SUPPORT. Laws/Commands.lean: for each command's effect, once, every state it can end in, written out field by
field; the provers cite these instead of unfolding an effect. -/

namespace Sys2Proof.Machine

/-- MODEXP ends in OperandRange, or with its value written. -/
theorem modexpCmd_cases (rs1 rs2 rs3 rd : RegIdx) (s : State) :
    (s.getReg rs3 = 0 ∧ modexpCmd rs1 rs2 rs3 rd s = { s with err := 4 }) ∨
      (s.getReg rs3 ≠ 0 ∧ modexpCmd rs1 rs2 rs3 rd s =
        { s with x := s.x.set rd (modexpVal (s.getReg rs1) (s.getReg rs2) (s.getReg rs3)), err := 0 }) := by
  by_cases h : s.getReg rs3 = 0
  · exact .inl ⟨h, by unfold modexpCmd; rw [State.source_eq, if_pos h]; rfl⟩
  · exact .inr ⟨h, by unfold modexpCmd; rw [State.source_eq, if_neg h]; rfl⟩

/-- MODINV ends with the sentinel, the inverse, or a fresh unspecified value below the modulus. -/
theorem modinvCmd_cases (P : Params) (rs1 rs2 rd : RegIdx) (s : State) :
    (s.getReg rs2 = 0 ∧ modinvCmd P rs1 rs2 rd s = { s with x := s.x.set rd 0, err := 0 }) ∨
      (s.getReg rs2 ≠ 0 ∧ Nat.gcd (s.getReg rs1) (s.getReg rs2) = 1 ∧ modinvCmd P rs1 rs2 rd s =
        { s with x := s.x.set rd (inverseVal (s.getReg rs1) (s.getReg rs2)), err := 0 }) ∨
      (s.getReg rs2 ≠ 0 ∧ Nat.gcd (s.getReg rs1) (s.getReg rs2) ≠ 1 ∧ modinvCmd P rs1 rs2 rd s =
        { s with
          x := s.x.set rd (P.unspecifiedValue s.freeDraws % s.getReg rs2)
          err := 0
          freeDraws := s.freeDraws + 1 }) := by
  by_cases h : s.getReg rs2 = 0
  · exact .inl ⟨h, by unfold modinvCmd; rw [State.source_eq, if_pos h]; rfl⟩
  · by_cases hg : Nat.gcd (s.getReg rs1) (s.getReg rs2) = 1
    · exact .inr (.inl ⟨h, hg, by
        unfold modinvCmd; rw [State.source_eq, State.source_eq, if_neg h, gcdVal, if_pos hg]; rfl⟩)
    · exact .inr (.inr ⟨h, hg, by
        unfold modinvCmd; rw [State.source_eq, State.source_eq, if_neg h, gcdVal, if_neg hg]; rfl⟩)

/-- GCD ends with the gcd written. -/
theorem gcdCmd_eq (rs1 rs2 rd : RegIdx) (s : State) :
    gcdCmd rs1 rs2 rd s = { s with x := s.x.set rd (Nat.gcd (s.getReg rs1) (s.getReg rs2)), err := 0 } := rfl

/-- PRIMETEST ends in OperandRange, with the verdict on 1, or as its trials end. -/
theorem primetestCmd_cases (P : Params) (rs1 : RegIdx) (iter : BitVec 8) (sbits : BitVec 15) (s : State) :
    (s.getReg rs1 = 0 ∧ primetestCmd P rs1 iter sbits s = { s with err := 4 }) ∨
      (s.getReg rs1 = 1 ∧ primetestCmd P rs1 iter sbits s = { s with prime := false, err := 0 }) ∨
      (2 ≤ s.getReg rs1 ∧ trialsPass P (s.getReg rs1) sbits.toNat s.entropyReqs iter.toNat ∧
        primetestCmd P rs1 iter sbits s =
          { s with prime := true, err := 0, entropyReqs := s.entropyReqs + iter.toNat }) ∨
      (2 ≤ s.getReg rs1 ∧ ∃ j < iter.toNat, trialsPass P (s.getReg rs1) sbits.toNat s.entropyReqs j ∧
        ((∃ r, randBits P sbits.toNat (s.entropyReqs + j) = some r ∧
            fermatPasses (s.getReg rs1) (witness (s.getReg rs1) r) = false ∧
            primetestCmd P rs1 iter sbits s =
              { s with prime := false, err := 0, entropyReqs := s.entropyReqs + j + 1 }) ∨
          (randBits P sbits.toNat (s.entropyReqs + j) = none ∧
            primetestCmd P rs1 iter sbits s = { s with err := 1, entropyReqs := s.entropyReqs + j + 1 }))) := by
  by_cases h0 : s.getReg rs1 = 0
  · exact .inl ⟨h0, by unfold primetestCmd; rw [State.source_eq, if_pos h0]; rfl⟩
  by_cases h1 : s.getReg rs1 = 1
  · exact .inr (.inl ⟨h1, by unfold primetestCmd; rw [State.source_eq, if_neg h0, if_pos h1]; rfl⟩)
  have hn : 2 ≤ s.getReg rs1 := by omega
  have hrun : primetestCmd P rs1 iter sbits s =
      s.endTrials (runTrials P (s.getReg rs1) sbits.toNat iter.toNat s.entropyReqs) := by
    unfold primetestCmd; rw [State.source_eq, if_neg h0, if_neg h1]; rfl
  rw [hrun]
  rcases runTrials_cases P (s.getReg rs1) sbits.toNat iter.toNat s.entropyReqs with
    ⟨hp, e⟩ | ⟨j, hj, hp, ⟨r, hr, hf, e⟩ | ⟨hr, e⟩⟩
  · exact .inr (.inr (.inl ⟨hn, hp, by rw [e]; rfl⟩))
  · exact .inr (.inr (.inr ⟨hn, j, hj, hp, .inl ⟨r, hr, hf, by rw [e]; rfl⟩⟩))
  · exact .inr (.inr (.inr ⟨hn, j, hj, hp, .inr ⟨hr, by rw [e]; rfl⟩⟩))

/-- FACTOR of an odd `n >= 3` ends as its attempts end. -/
theorem factorCmd_odd (P : Params) (rs1 rd rd2 : RegIdx) (s : State) (hd : rd ≠ rd2) (hn : 3 ≤ s.getReg rs1)
    (ho : s.getReg rs1 % 2 = 1) :
    factorCmd P rs1 rd rd2 s =
      s.endSearch P rd rd2 (s.getReg rs1) (rhoSearch P (s.getReg rs1) P.rhoMaxAttempts s.entropyReqs) := by
  unfold factorCmd
  rw [State.source_eq, if_neg hd, if_neg (by omega), if_neg (by omega)]

/-- A nontrivial divisor found is written with its cofactor, and the command completes. -/
theorem endSearch_found (P : Params) (s : State) (rd rd2 : RegIdx) {n d q : Nat} (h : 1 < d ∧ d < n ∧ d ∣ n) :
    s.endSearch P rd rd2 n (.found d, q) =
      { s with x := (s.x.set rd d).set rd2 (n / d), err := 0, entropyReqs := q } := by
  have hq : n / d ≠ 0 := Nat.pos_iff_ne_zero.mp (Nat.div_pos h.2.1.le (by omega))
  simp only [State.endSearch, State.factorSucceed]
  rw [if_neg (by omega)]
  rfl

/-- FACTOR, in every way it can end. -/
theorem factorCmd_cases (P : Params) (rs1 rd rd2 : RegIdx) (s : State) :
    (rd = rd2 ∧ factorCmd P rs1 rd rd2 s = { s with err := 3 }) ∨
      (rd ≠ rd2 ∧ s.getReg rs1 = 1 ∧
        factorCmd P rs1 rd rd2 s = { s with x := (s.x.set rd 0).set rd2 0, err := 2 }) ∨
      (rd ≠ rd2 ∧ s.getReg rs1 = 0 ∧ P.fits 2 = true ∧
        factorCmd P rs1 rd rd2 s = { s with x := (s.x.set rd 2).set rd2 0, err := 2 }) ∨
      (rd ≠ rd2 ∧ s.getReg rs1 = 0 ∧ P.fits 2 = false ∧
        factorCmd P rs1 rd rd2 s =
          { s with
            x := (s.x.set rd (P.clip (P.unspecifiedValue s.freeDraws))).set rd2 0
            err := 2
            freeDraws := s.freeDraws + 1 }) ∨
      (rd ≠ rd2 ∧ 2 ≤ s.getReg rs1 ∧ s.getReg rs1 % 2 = 0 ∧
        factorCmd P rs1 rd rd2 s = { s with x := (s.x.set rd 2).set rd2 (s.getReg rs1 / 2), err := 0 }) ∨
      (rd ≠ rd2 ∧ 3 ≤ s.getReg rs1 ∧ s.getReg rs1 % 2 = 1 ∧
        (((∀ j < P.rhoMaxAttempts, attemptCollapses P (s.getReg rs1) (s.entropyReqs + 2 * j)) ∧
            factorCmd P rs1 rd rd2 s =
              { s with
                x := (s.x.set rd 0).set rd2 0
                err := 2
                entropyReqs := s.entropyReqs + 2 * P.rhoMaxAttempts }) ∨
          ∃ j < P.rhoMaxAttempts,
            (∀ i < j, attemptCollapses P (s.getReg rs1) (s.entropyReqs + 2 * i)) ∧
            ((∃ x c d, randRange P 2 (s.getReg rs1 - 1) (s.entropyReqs + 2 * j) = some x ∧
                randRange P 1 (s.getReg rs1 - 1) (s.entropyReqs + 2 * j + 1) = some c ∧
                rhoWalk (s.getReg rs1) c (s.getReg rs1) x x = .found d ∧
                factorCmd P rs1 rd rd2 s =
                  { s with
                    x := (s.x.set rd d).set rd2 (s.getReg rs1 / d)
                    err := 0
                    entropyReqs := s.entropyReqs + 2 * j + 2 }) ∨
              (randRange P 2 (s.getReg rs1 - 1) (s.entropyReqs + 2 * j) = none ∧
                factorCmd P rs1 rd rd2 s = { s with err := 1, entropyReqs := s.entropyReqs + 2 * j + 1 }) ∨
              (∃ x, randRange P 2 (s.getReg rs1 - 1) (s.entropyReqs + 2 * j) = some x ∧
                randRange P 1 (s.getReg rs1 - 1) (s.entropyReqs + 2 * j + 1) = none ∧
                factorCmd P rs1 rd rd2 s = { s with err := 1, entropyReqs := s.entropyReqs + 2 * j + 2 })))) := by
  by_cases hd : rd = rd2
  · exact .inl ⟨hd, by unfold factorCmd; rw [if_pos hd]; rfl⟩
  refine .inr ?_
  by_cases h1 : s.getReg rs1 = 1
  · exact .inl ⟨hd, h1, by unfold factorCmd; rw [State.source_eq, if_neg hd, if_pos h1]; rfl⟩
  refine .inr ?_
  by_cases h0 : s.getReg rs1 = 0
  · have hz : factorCmd P rs1 rd rd2 s = ((s.setRegFitted P rd 2).setReg rd2 0).raise .invalidModulus := by
      unfold factorCmd State.factorSucceed
      rw [State.source_eq, if_neg hd, if_neg h1, h0, if_pos rfl, if_pos (.inr rfl)]
    rw [hz]
    cases hf : P.fits 2 with
    | true => exact .inl ⟨hd, h0, rfl, by unfold State.setRegFitted; rw [if_pos hf]; rfl⟩
    | false => exact .inr (.inl ⟨hd, h0, rfl, by unfold State.setRegFitted; rw [if_neg (by simp [hf])]; rfl⟩)
  refine .inr (.inr ?_)
  by_cases he : s.getReg rs1 % 2 = 0
  · refine .inl ⟨hd, by omega, he, ?_⟩
    unfold factorCmd State.factorSucceed
    rw [State.source_eq, if_neg hd, if_neg h1, if_pos he, if_neg (by omega)]
    rfl
  refine .inr ⟨hd, by omega, by omega, ?_⟩
  rw [factorCmd_odd P rs1 rd rd2 s hd (by omega) (by omega)]
  rcases rhoSearch_cases P (s.getReg rs1) P.rhoMaxAttempts s.entropyReqs with
    ⟨hc, e⟩ | ⟨j, hj, hc, ⟨x, c, d, hx, hi, hw, e⟩ | ⟨hx, e⟩ | ⟨x, hx, hi, e⟩⟩
  · exact .inl ⟨hc, by rw [e]; rfl⟩
  · exact .inr ⟨j, hj, hc, .inl ⟨x, c, d, hx, hi, hw, by
      rw [e, endSearch_found P s rd rd2 (rhoWalk_found _ _ _ _ _ _ hw)]⟩⟩
  · exact .inr ⟨j, hj, hc, .inr (.inl ⟨hx, by rw [e]; rfl⟩)⟩
  · exact .inr ⟨j, hj, hc, .inr (.inr ⟨x, hx, hi, by rw [e]; rfl⟩)⟩

end Sys2Proof.Machine
end

