-- ==== Sys2Proof/Laws/PerInstr.lean ====
section
/-! SUPPORT. Laws/PerInstr.lean: the family OpcodeMap, one lemma for each constructor: the word an instruction
encodes to matches its row of the opcode map, `(w AND mask) == match` (30_encoding R63). -/

namespace Sys2Proof

/-- The bits of an R-format word, field by field (30_encoding R61). -/
theorem rFormat_getLsbD (op : BitVec 6) (rs1 rs2 rs3 rd rd2 : RegIdx) (i : Nat) (hi : i < 32) :
    (rFormat op rs1 rs2 rs3 rd rd2).getLsbD i =
      if i < 11 then false
      else if i < 14 then (BitVec.ofFin rd2 : BitVec 3).getLsbD (i - 11)
      else if i < 17 then (BitVec.ofFin rd : BitVec 3).getLsbD (i - 14)
      else if i < 20 then (BitVec.ofFin rs3 : BitVec 3).getLsbD (i - 17)
      else if i < 23 then (BitVec.ofFin rs2 : BitVec 3).getLsbD (i - 20)
      else if i < 26 then (BitVec.ofFin rs1 : BitVec 3).getLsbD (i - 23)
      else op.getLsbD (i - 26) := by
  unfold rFormat
  rw [BitVec.getLsbD_cast]
  simp only [BitVec.getLsbD_append]
  interval_cases i <;> simp

/-- The bits of a P-format word, field by field (30_encoding R62). -/
theorem pFormat_getLsbD (op : BitVec 6) (rs1 : RegIdx) (iter : BitVec 8) (sbits : BitVec 15) (i : Nat) (hi : i < 32) :
    (pFormat op rs1 iter sbits).getLsbD i =
      if i < 15 then sbits.getLsbD i
      else if i < 23 then iter.getLsbD (i - 15)
      else if i < 26 then (BitVec.ofFin rs1 : BitVec 3).getLsbD (i - 23)
      else op.getLsbD (i - 26) := by
  unfold pFormat
  rw [BitVec.getLsbD_cast]
  simp only [BitVec.getLsbD_append]
  interval_cases i <;> simp

namespace Laws.OpcodeMap

/-- The encoded word is in its row of the opcode map (30_encoding R63). -/
def Statement (i : Instr) : Prop := encode i &&& i.maskWord = i.matchWord

/-- What the words of an R-format operation have in common with a mask, bit by bit. -/
theorem rFormat_row (op : BitVec 6) (rs1 rs2 rs3 rd rd2 : RegIdx) (mask row : CmdWord)
    (h : ∀ i < 32, ((rFormat op rs1 rs2 rs3 rd rd2).getLsbD i && mask.getLsbD i) = row.getLsbD i) :
    rFormat op rs1 rs2 rs3 rd rd2 &&& mask = row :=
  BitVec.eq_of_getLsbD_eq fun i hi => by rw [BitVec.getLsbD_and, h i hi]

theorem modexpRow (rs1 rs2 rs3 rd : RegIdx) :
    rFormat opModexp rs1 rs2 rs3 rd 0 &&& 0xFC003FFF = 0x04000000 := by
  apply rFormat_row
  intro i hi
  rw [rFormat_getLsbD _ _ _ _ _ _ i hi]
  interval_cases i <;> simp [opModexp]

theorem modexp (rs1 rs2 rs3 rd : RegIdx) : Statement (.modexp rs1 rs2 rs3 rd) := modexpRow rs1 rs2 rs3 rd

theorem modinv (rs1 rs2 rd : RegIdx) : Statement (.modinv rs1 rs2 rd) := by
  apply rFormat_row
  intro i hi
  rw [rFormat_getLsbD _ _ _ _ _ _ i hi]
  interval_cases i <;> simp [opModinv, Instr.maskWord, Instr.matchWord]

theorem gcd (rs1 rs2 rd : RegIdx) : Statement (.gcd rs1 rs2 rd) := by
  apply rFormat_row
  intro i hi
  rw [rFormat_getLsbD _ _ _ _ _ _ i hi]
  interval_cases i <;> simp [opGcd, Instr.maskWord, Instr.matchWord]

theorem primetest (rs1 : RegIdx) (iter : BitVec 8) (sbits : BitVec 15) : Statement (.primetest rs1 iter sbits) := by
  apply BitVec.eq_of_getLsbD_eq
  intro i hi
  rw [BitVec.getLsbD_and, encode, pFormat_getLsbD _ _ _ _ i hi]
  interval_cases i <;> simp [opPrimetest, Instr.maskWord, Instr.matchWord]

theorem factor (rs1 rd rd2 : RegIdx) : Statement (.factor rs1 rd rd2) := by
  apply rFormat_row
  intro i hi
  rw [rFormat_getLsbD _ _ _ _ _ _ i hi]
  interval_cases i <;> simp [opFactor, Instr.maskWord, Instr.matchWord]

theorem encrypt (rs1 rs2 rs3 rd : RegIdx) : Statement (.encrypt rs1 rs2 rs3 rd) := modexpRow rs1 rs2 rs3 rd

theorem decrypt (rs1 rs2 rs3 rd : RegIdx) : Statement (.decrypt rs1 rs2 rs3 rd) := modexpRow rs1 rs2 rs3 rd

end Laws.OpcodeMap

end Sys2Proof
end

