-- ==== Sys2Proof/Tests/Slice0.lean ====
section
/-! SUPPORT. Tests/Slice0.lean: tests of the model, each expected result from spec/95_test_vectors or from the rule
named; then a witness for the hypotheses of every obligation that has some. -/

namespace Sys2Proof.Machine

/-! ## Small states and entropy answers -/

/-- After reset, with these values in `x[0]`, `x[1]`, … and 0 in the rest. -/
def regs (l : List Nat) : State := { State.reset with x := Vector.ofFn fun i : RegIdx => l.getD i 0 }

/-- Unbounded registers, this many attempts, and these raw answers of the entropy port, then `fail`: a raw answer
is `r` for RandBits, `x - 2` for a seed `x`, `c - 1` for an increment `c`. -/
def answers (attempts : Nat) (raw : List (Option Nat)) : Params :=
  { widthPred := none
    rhoPred := attempts - 1
    entropyAnswer := fun q => raw[q]?.join
    unspecifiedValue := fun _ => 10 }

/-! ## WellFormed (30_encoding R67) -/

theorem test_factor_same_destination_ill_formed : (Instr.factor 0 1 1).wellFormed = false := by decide

theorem test_factor_destination_may_be_source : (Instr.factor 0 0 1).wellFormed = true := by decide

/-! ## Decode: words written out from 30_encoding R61, R62 (DE-7 to DE-35) -/

theorem test_decode_modexp : decode 0x07FFC000 = .ok (.modexp 7 7 7 7) ∧ decode 0x05950000 = .ok (.modexp 3 1 2 4) := by
  decide

theorem test_decode_modinv : decode 0x08D1C000 = .ok (.modinv 1 5 7) ∧ decode 0x08000000 = .ok (.modinv 0 0 0) := by
  decide

theorem test_decode_gcd : decode 0x0CD18000 = .ok (.gcd 1 5 6) ∧ decode 0x0C000000 = .ok (.gcd 0 0 0) := by decide

theorem test_decode_primetest :
    decode 0x13FFFFFF = .ok (.primetest 7 255 32767) ∧ decode 0x10018008 = .ok (.primetest 0 3 8) := by decide

theorem test_decode_factor : decode 0x1781F000 = .ok (.factor 7 7 6) ∧ decode 0x14000800 = .ok (.factor 0 0 1) := by
  decide

/-- DE-15 to DE-23. -/
theorem test_decode_unused_field :
    ([0x0414C001, 0x0414C400, 0x0414C800, 0x08168000, 0x08108800, 0x08108001, 0x0C128000, 0x0C10A000,
        0x0C108400] : List CmdWord).map decode =
      List.replicate 9 (.error .unusedFieldNotZero) := by decide

/-- DE-24 to DE-29. -/
theorem test_decode_factor_illegal :
    ([0x14105000, 0x14025000, 0x14005001] : List CmdWord).map decode =
        List.replicate 3 (.error .unusedFieldNotZero) ∧
      ([0x14004800, 0x14000000, 0x1401F800] : List CmdWord).map decode =
        List.replicate 3 (.error .factorSameDestination) := by decide

/-- DE-30 to DE-35. -/
theorem test_decode_unassigned :
    ([0x00000000, 0xFFFFFFFF, 0x18000000, 0x1C000000, 0x80000000, 0x0014C000] : List CmdWord).map decode =
      List.replicate 6 (.error .unassignedOpcode) := by decide

/-- The pseudo-instructions' words of program P1. -/
theorem test_encode_pseudo :
    encode (.encrypt 3 1 2 4) = 0x05950000 ∧ encode (.decrypt 4 6 2 5) = 0x06654000 := by decide

theorem test_decodeTableWord : decodeTableWord 32 0x0414C000 = some (.modexp 0 1 2 3) ∧ decodeTableWord 32 0 = none := by
  decide

/-! ## MODEXP, ENCRYPT, DECRYPT -/

/-- MX-1, MX-20, MX-22. -/
theorem test_modexp_values :
    (modexpCmd 0 1 2 3 (regs [4, 13, 497])).getReg 3 = 445 ∧ (modexpCmd 0 0 0 0 (regs [9])).getReg 0 = 0 ∧
      (modexpCmd 0 1 2 0 (regs [4, 13, 497])).getReg 0 = 445 := by decide

/-- MX-5, MX-6, MX-8 and MX-17: exponent 0, modulus 1, the contested corner, modulus 0. -/
theorem test_modexp_corners :
    modexpVal 3 0 5 = 1 ∧ modexpVal 3 5 1 = 0 ∧ modexpVal 0 0 5 = 0 ∧
      modexpCmd 0 1 2 3 (regs [5, 3, 0, 8]) = { regs [5, 3, 0, 8] with err := 4 } := by decide

/-- MX-2: program P1's ENCRYPT. -/
theorem test_encrypt : ∃ t, exec (.encrypt 3 1 2 4) (regs [0, 7, 60491, 7]) = .next t ∧ t.getReg 4 = 37160 :=
  ⟨_, rfl, by decide⟩

/-- MX-3: program P1's DECRYPT. -/
theorem test_decrypt :
    ∃ t, exec (.decrypt 4 6 2 5) (regs [0, 7, 60491, 7, 37160, 0, 5143]) = .next t ∧ t.getReg 5 = 7 :=
  ⟨_, rfl, by decide⟩

/-! ## MODINV and GCD -/

/-- MI-1, MI-5, MI-10, MI-14. -/
theorem test_modinv_values :
    inverseVal 7 6000 = 5143 ∧ inverseVal 5 1 = 0 ∧ inverseVal 23 7 = 4 ∧
      inverseVal 65537 4294967296 = 4294901761 := by decide

/-- MI-6 completes with the sentinel; MI-8 completes with a value below the modulus. -/
theorem test_modinv_without_inverse (P : Params) :
    modinvCmd P 0 1 2 (regs [5, 0, 8]) = regs [5, 0, 0] ∧ (modinvCmd P 0 1 2 (regs [4, 6])).getReg 2 < 6 ∧
      (modinvCmd P 0 1 2 (regs [4, 6])).err = 0 :=
  ⟨rfl, Nat.mod_lt _ (by decide), rfl⟩

/-- GC-1, GC-3, GC-4, GC-5, GC-6. -/
theorem test_gcd_values :
    gcdVal 48 18 = 6 ∧ gcdVal 12 4 = 4 ∧ gcdVal 5 0 = 5 ∧ gcdVal 0 5 = 5 ∧ gcdVal 0 0 = 0 := by decide

/-- GC-13, and ER-3: ERR goes back to 0. -/
theorem test_gcd_clears_err :
    gcdCmd 0 0 3 { regs [1] with err := 2, prime := true } = { regs [1, 0, 0, 1] with prime := true } := by decide

/-! ## PRIMETEST -/

/-- PT-1 and PT-2: the verdict and the number of requests. -/
theorem test_primetest_verdicts :
    primetestCmd (answers 1 [some 1, some 100, some 249]) 0 3 8 (regs [251]) =
        { regs [251] with prime := true, entropyReqs := 3 } ∧
      primetestCmd (answers 1 [some 1, some 4, some 2]) 0 3 10 { regs [561] with prime := true } =
        { regs [561] with prime := false, entropyReqs := 3 } := by decide

/-- PT-5 (early stop), PT-18 (`fail` leaves PRIME), ER-1 (OperandRange before any request). -/
theorem test_primetest_early_ends :
    (primetestCmd (answers 1 [some 1, some 9, some 9]) 0 3 4 (regs [15])).entropyReqs = 1 ∧
      primetestCmd (answers 1 [some 1, none]) 0 3 8 { regs [251] with prime := true } =
        { regs [251] with prime := true, err := 1, entropyReqs := 2 } ∧
      primetestCmd (answers 1 []) 0 3 8 { regs [0] with prime := true } =
        { regs [0] with prime := true, err := 4 } := by decide

/-! ## FACTOR -/

/-- FA-1, FA-5 (a collapsed attempt, then a factor), FA-10 (even), FA-23 (a destination is the source). -/
theorem test_factor_found :
    factorCmd (answers 3 [some 0, some 0]) 0 1 2 (regs [8051, 111, 222]) =
        { regs [8051, 97, 83] with entropyReqs := 2 } ∧
      factorCmd (answers 3 [some 0, some 1, some 0, some 0]) 0 1 2 (regs [15, 111, 222]) =
        { regs [15, 3, 5] with entropyReqs := 4 } ∧
      factorCmd (answers 3 []) 0 1 2 (regs [502, 111, 222]) = regs [502, 2, 251] ∧
      factorCmd (answers 3 [some 0, some 0]) 0 0 1 (regs [8051]) = { regs [97, 83] with entropyReqs := 2 } := by decide

/-- FA-6 (all attempts collapse), FA-11, FA-12, FA-22 (collapse, then `fail`: destinations unwritten). -/
theorem test_factor_not_found :
    factorCmd (answers 1 [some 0, some 1]) 0 1 2 (regs [15, 111, 222]) =
        { regs [15] with err := 2, entropyReqs := 2 } ∧
      factorCmd (answers 3 []) 0 1 2 (regs [0, 111, 222]) = { regs [0, 2, 0] with err := 2 } ∧
      factorCmd (answers 3 []) 0 1 2 (regs [1, 111, 222]) = { regs [1] with err := 2 } ∧
      factorCmd (answers 3 [some 0, some 1, none]) 0 1 2 (regs [15, 111, 222]) =
        { regs [15, 111, 222] with err := 1, entropyReqs := 3 } := by decide

/-- FA-2: 13 rounds. -/
theorem test_rho_walk : rhoWalk 60491 1 60491 2 2 = .found 241 ∧ rhoWalk 15 2 15 2 2 = .collapsed := by decide

/-! ## The host port and STATUS -/

/-- ER-4: Issue of `0x00000000`, then STATUS is `0x13`. -/
theorem test_issue_illegal :
    step ({ State.reset with prime := true }.withFetchWord 32 0) = .next { State.reset with prime := true, err := 3 } ∧
      { State.reset with prime := true, err := 3 }.statusWord = 0x13 := ⟨rfl, by decide⟩

/-- MX-21 through the host port: the word is the first instruction after reset. -/
theorem test_issue_first : step (State.reset.withFetchWord 32 0x04000000) = .next { State.reset with err := 4 } := rfl

/-- ER-1's STATUS word. -/
theorem test_status_word : { State.reset with prime := true, err := 4 }.statusWord = 0x14 := by decide

/-- ER-10: WriteReg, then ReadReg. -/
theorem test_write_read :
    transact (answers 1 []) (.writeReg 2 5) (regs [0, 0, 9]) = .next (regs [0, 0, 5]) ∧
      (hostReadReg 2 (regs [0, 0, 5])).replies = [.value 2 5] := ⟨rfl, by decide⟩

/-- ER-8: Reset, and every register fits whatever is drawn. -/
theorem test_reset :
    (hostReset (answers 1 []) { regs [1] with err := 2, prime := true }).statusWord = 0 := by decide

/-! ## Assembler and scripts (30_encoding R71 to R73) -/

theorem test_assembler_rejects :
    assemble "MODEXP x8, x0, x1, x2" = .error .register ∧ assemble "PRIMETEST x0, 32768" = .error .immediate ∧
      assemble "PRIMETEST x0, 8, 256" = .error .immediate ∧ assemble "FACTOR x1, x1, x0" = .error .sameDestination := by
  decide

/-- Lines of program P1. -/
theorem test_script :
    assembleScript ["LOAD x1, 7                   # e", "ENCRYPT x4, x3, x1, x2       # = MODEXP x4, x3, x1, x2",
      "STATUS -> s1", "READ x4 -> c                 # 37160", "HOST: lam <- lcm(p-1, q-1)"] =
      .ok [.writeReg 1 7, .issue 0x05950000, .readStatus, .readReg 4] := by decide

/-! ## Witnesses: every obligation's hypotheses are met together -/

theorem witness_DecodeOfEncode : (Instr.factor 7 0 7).wellFormed = true ∧ (Instr.decrypt 7 7 7 7).wellFormed = true := by
  decide

theorem witness_EncodeOfDecode :
    decode 0x07FFC000 = .ok (.modexp 7 7 7 7) ∧ decode 0x10000000 = .ok (.primetest 0 0 0) := by decide

theorem witness_IllegalCommands :
    (State.reset.withFetchWord 32 0).pending = .issue 0 :: [] ∧ decode 0 = .error .unassignedOpcode ∧
      (State.reset.withFetchWord 32 0x14000000).pending = .issue 0x14000000 :: [] ∧
      decode 0x14000000 = .error .factorSameDestination := by decide

theorem witness_AssembledWordsAreLegal :
    assemble "PRIMETEST x7, 32767, 255" = .ok (.primetest 7 255 32767) ∧
      assemble "DECRYPT x5, x4, x6, x2" = .ok (.decrypt 4 6 2 5) := by decide

/-- Also for EveryIssueEnds. -/
theorem witness_StepRunsDecodedInstruction :
    (State.reset.withFetchWord 32 0x0C108000).pending = .issue 0x0C108000 :: [] ∧
      decode 0x0C108000 = .ok (.gcd 0 1 2) := by decide

/-- The clause that fits is met by 0 whatever the width is; for the other no value can be shown, the width being
opaque. -/
theorem witness_WriteRegTransaction :
    { State.reset with pending := [.writeReg 7 0] }.pending = .writeReg 7 0 :: [] ∧ Config.chip.fits 0 = true :=
  ⟨rfl, fits_zero _⟩

theorem witness_ReadRegTransaction : { State.reset with pending := [.readReg 7] }.pending = .readReg 7 :: [] := rfl

theorem witness_ReadStatusTransaction : { State.reset with pending := [.readStatus] }.pending = .readStatus :: [] := rfl

theorem witness_ResetTransaction : { State.reset with pending := [.reset] }.pending = .reset :: [] := rfl

theorem witness_WriteThenReadReturnsValue :
    { regs [9] with pending := [.writeReg 0 0, .readReg 0] }.pending = .writeReg 0 0 :: .readReg 0 :: [] ∧
      Config.chip.fits 0 = true := ⟨rfl, fits_zero _⟩

theorem witness_IdleHoldsState : (regs [1, 2, 3]).pending = [] := by decide

/-- A modulus of 1, the least that completes, and of 0. -/
theorem witness_ModexpResult : (regs [4, 13, 1]).getReg 2 ≠ 0 ∧ (regs [4, 13, 0]).getReg 2 = 0 := by decide

theorem witness_ModexpLaws : 1 < 2 ∧ 1 % 2 ≠ 0 ∧ 1 ≤ 1 := by decide

/-- The key of program P1, its values in x1, x6 and x2, the largest message in x3; the results go to x4 and x5. -/
theorem witness_RsaRoundTrip :
    (⟨251, 241, 60491, 7, 5143⟩ : KeyMaterial).Valid ∧
      let s := regs [0, 7, 60491, 60490, 0, 0, 5143]
      s.getReg 3 < 60491 ∧ s.getReg 1 = 7 ∧ s.getReg 6 = 5143 ∧ s.getReg 2 = 60491 ∧
        (4 : RegIdx) ≠ 1 ∧ (4 : RegIdx) ≠ 6 ∧ (4 : RegIdx) ≠ 2 := by
  refine ⟨?_, by decide⟩
  unfold KeyMaterial.Valid totientLcm
  norm_num

/-- Modulus 0; the moduli 1 and 6 with an inverse; the modulus 2 without one. -/
theorem witness_ModinvResult :
    (regs [5, 0]).getReg 1 = 0 ∧
      ((regs [0, 1]).getReg 1 ≠ 0 ∧ Nat.gcd ((regs [0, 1]).getReg 0) ((regs [0, 1]).getReg 1) = 1) ∧
      ((regs [5, 6]).getReg 1 ≠ 0 ∧ Nat.gcd ((regs [5, 6]).getReg 0) ((regs [5, 6]).getReg 1) = 1) ∧
      ((regs [0, 2]).getReg 1 ≠ 0 ∧ Nat.gcd ((regs [0, 2]).getReg 0) ((regs [0, 2]).getReg 1) ≠ 1) := by decide

/-- `n` at 0, 1 and 2. -/
theorem witness_PrimetestResult :
    (regs [0]).getReg 0 = 0 ∧ (regs [1]).getReg 0 = 1 ∧ 2 ≤ (regs [2]).getReg 0 := by decide

/-- The prime 2; and PT-9, whose verdict is composite. -/
theorem witness_PrimetestNeverRejectsPrime :
    Nat.Prime ((regs [2]).getReg 0) ∧
      ∃ t, t = effect (answers 1 [some 1]) (.primetest 0 1 4) (regs [9]) ∧ 2 ≤ (regs [9]).getReg 0 ∧ t.err = 0 ∧
        t.prime = false :=
  ⟨Nat.prime_two, _, rfl, by decide⟩

/-- Also for EveryNumberCanPass; the second hypothesis at `n = 2`, `n = 3` and with `sbits = 0`. -/
theorem witness_PrimetestCornerVerdicts :
    2 ≤ (regs [2]).getReg 0 ∧ (regs [2]).getReg 0 = 2 ∧ (regs [3]).getReg 0 = 3 ∧ 2 ≤ (regs [15]).getReg 0 ∧
      (0 : BitVec 8) = 0 ∧ (0 : BitVec 15) = 0 := by decide

theorem witness_WitnessRange : 2 ≤ 2 ∧ 0 < 2 ^ 0 := by decide

theorem witness_EntropyAnswersAreTheRange : 2 ≤ 2 ∧ (∃ P, randRange P 2 2 0 = some 2) ∧ ∃ P, randBits P 0 0 = some 0 :=
  ⟨le_rfl, ⟨answers 1 [some 0], by decide⟩, ⟨answers 1 [some 5], by decide⟩⟩

/-- Also for ExecAnswersTheEffect's users: every `exec i s` is a next state. -/
theorem witness_EntropyRequestsAreBounded :
    exec (.gcd 0 1 2) (regs [12, 4]) = .next (gcdCmd 0 1 2 (regs [12, 4])) := rfl

/-- `n = 1`, and the least and the next even `n >= 2`. -/
theorem witness_FactorWithoutWalk :
    (1 : RegIdx) ≠ 2 ∧ (regs [1]).getReg 0 = 1 ∧ 2 ≤ (regs [2]).getReg 0 ∧ (regs [2]).getReg 0 % 2 = 0 ∧
      2 ≤ (regs [4]).getReg 0 ∧ (regs [4]).getReg 0 % 2 = 0 := by decide

theorem witness_FactorOfZero : (1 : RegIdx) ≠ 2 ∧ (regs [0]).getReg 0 = 0 := by decide

/-- Also for FactorResultIsNontrivial: the least odd `n >= 3`. -/
theorem witness_FactorSearch : (1 : RegIdx) ≠ 2 ∧ 3 ≤ (regs [3]).getReg 0 ∧ (regs [3]).getReg 0 % 2 = 1 := by decide

/-- A walk that finds a factor and one that collapses. -/
theorem witness_RhoWalkIsFloyd : 2 ≤ 15 ∧ rhoWalk 15 1 15 2 2 = .found 3 ∧ rhoWalk 15 2 15 2 2 = .collapsed := by decide

theorem witness_RhoWalkEndsWithinN : 1 ≤ 1 ∧ 1 ≤ 2 := by decide

theorem witness_FactorOfOddPrimeFails :
    (1 : RegIdx) ≠ 2 ∧ Nat.Prime ((regs [3]).getReg 0) ∧ (regs [3]).getReg 0 % 2 = 1 :=
  ⟨by decide, Nat.prime_three, by decide⟩

/-- Also for the statements whose only hypothesis is that `exec` gives a next state. -/
theorem witness_PrimeIsOnlyPrimetests : ∃ t, exec (.primetest 0 3 8) (regs [1]) = .next t ∧ t.err = 0 :=
  ⟨_, rfl, by decide⟩

/-- Each of the errors: 1 (PT-18), 2 (FA-12), 3 (R67), 4 (PT-15); and an illegal word (DE-30). -/
theorem witness_ErrorsArePrecise :
    (effect (answers 1 [some 1, none]) (.primetest 0 3 8) (regs [251])).err = 1 ∧
      (effect (answers 3 []) (.factor 0 1 2) (regs [1])).err = 2 ∧
      (effect (answers 3 []) (.factor 0 1 1) (regs [1])).err = 3 ∧
      (effect (answers 1 []) (.primetest 0 3 8) (regs [0])).err = 4 ∧ decode 0 = .error .unassignedOpcode := by decide

/-- A MODEXP and a PRIMETEST that raise it, and one of each that do not. -/
theorem witness_OperandRangeExactlyWhen :
    (effect Config.chip (.modexp 0 1 2 3) (regs [5, 3, 0])).err = 4 ∧
      (effect Config.chip (.modexp 0 1 2 3) (regs [5, 3, 1])).err = 0 ∧
      (effect Config.chip (.primetest 0 3 8) (regs [0])).err = 4 ∧
      (effect Config.chip (.primetest 0 3 8) (regs [1])).err = 0 := ⟨rfl, rfl, rfl, rfl⟩

/-- PT-18 and FA-22. -/
theorem witness_EntropyErrorIsAFailedRequest :
    (effect (answers 1 [some 1, none]) (.primetest 0 3 8) (regs [251])).err = 1 ∧
      (effect (answers 3 [some 0, some 1, none]) (.factor 0 1 2) (regs [15])).err = 1 := by decide

/-- Its three cases, FA-11, FA-12 and FA-6, and one that succeeds, FA-4. -/
theorem witness_InvalidModulusExactlyWhen :
    (effect (answers 3 []) (.factor 0 1 2) (regs [0])).err = 2 ∧
      (effect (answers 3 []) (.factor 0 1 2) (regs [1])).err = 2 ∧
      (effect (answers 1 [some 0, some 1]) (.factor 0 1 2) (regs [15])).err = 2 ∧
      (effect (answers 1 [some 0, some 0]) (.factor 0 1 2) (regs [15])).err = 0 := by decide

/-- Register 3 is no destination of this GCD. -/
theorem witness_OnlyDestinationsAreWritten :
    (3 : RegIdx) ∉ (Instr.gcd 0 1 2).dests ∧ ∃ t, exec (.gcd 0 1 2) (regs [12, 4, 0, 9]) = .next t :=
  ⟨by decide, _, rfl⟩

/-- Two states that differ in x3 only, which this GCD does not read. -/
theorem witness_OnlySourcesAreRead :
    (∀ r ∈ (Instr.gcd 0 1 2).sources, (regs [12, 4, 0, 1]).getReg r = (regs [12, 4, 0, 2]).getReg r) ∧
      regs [12, 4, 0, 1] ≠ regs [12, 4, 0, 2] ∧
      (∃ t, exec (.gcd 0 1 2) (regs [12, 4, 0, 1]) = .next t) ∧ ∃ t, exec (.gcd 0 1 2) (regs [12, 4, 0, 2]) = .next t :=
  ⟨by decide, by decide, ⟨_, rfl⟩, _, rfl⟩

/-- A command issued in the state after reset, which is legal whatever the width. -/
theorem witness_StepKeepsLegal :
    (State.reset.withFetchWord 32 0x0C108000).Legal Config.chip ∧
      ∃ t, step (State.reset.withFetchWord 32 0x0C108000) = .next t := by
  refine ⟨⟨fun i => ?_, Nat.zero_le _⟩, _, rfl⟩
  have : (State.reset.withFetchWord 32 0x0C108000).getReg i = 0 := by revert i; decide
  rw [this]
  exact fits_zero _

/-- A script that writes x0 and x1, takes their gcd into x2 and reads it, from two states that differ in x5. -/
theorem witness_InitialisedScriptsIgnoreUnwrittenRegisters :
    regs [0, 0, 0, 0, 0, 9] = { regs [] with x := (regs [0, 0, 0, 0, 0, 9]).x } ∧
      regs [0, 0, 0, 0, 0, 9] ≠ regs [] ∧
      safeRun Config.chip [.writeReg 0 0, .writeReg 1 0, .issue 0x0C108000, .readReg 2] [] (regs []) = true := by
  refine ⟨rfl, by decide, ?_⟩
  have hd : decode 0x0C108000 = .ok (.gcd 0 1 2) := by decide
  simp only [safeRun, transact, hostWriteReg, fits_zero, if_true, hostIssue, hd, exec, execGcd, readsInitialised,
    HostOp.reads, writtenAfter]
  decide

end Sys2Proof.Machine
end

section
/-! PROOF. Every step keeps the machine legal (00_scope R10, R11; 10_state R27). A legal state is one whose registers
fit and whose error code is at most 4, so there is one rule for a register write and one for an error code; each
command and each host transaction is then read off its case lemma. -/

namespace Sys2Proof.Machine

section FittingRegisters

variable {P : Params} {s t : State}

/-! ## The rules: a register write, an error code -/

/-- A write of a value that fits keeps every register within `W` bits. -/
theorem State.regsFit_setReg (hs : s.regsFit P) (i : RegIdx) {v : Nat} (hv : P.fits v = true) :
    (s.setReg i v).regsFit P := by
  intro j
  rw [State.getReg_setReg]
  split
  · exact hv
  · exact hs j

/-- Writing two values that fit, as FACTOR does, keeps every register within `W` bits. -/
theorem State.regsFit_setReg_setReg (hs : s.regsFit P) (i j : RegIdx) {u v : Nat} (hu : P.fits u = true)
    (hv : P.fits v = true) : ((s.setReg i u).setReg j v).regsFit P :=
  State.regsFit_setReg (State.regsFit_setReg hs i hu) j hv

/-- Every error has a code of at most 4 (60_exceptions R140). -/
theorem ErrKind.code_le_four (k : ErrKind) : k.code.toNat ≤ 4 := by
  cases k <;> decide

/-- Whether the registers fit does not depend on the other fields. -/
theorem State.regsFit_of_x_eq (hs : s.regsFit P) (hx : t.x = s.x) : t.regsFit P := by
  intro i
  rw [State.getReg, hx]
  exact hs i

/-- A state with the registers of a fitting one, and the code of an error, is legal. -/
theorem State.legal_of_raised (hs : s.regsFit P) (k : ErrKind) (hx : t.x = s.x) (he : t.err = k.code) : t.Legal P :=
  ⟨State.regsFit_of_x_eq hs hx, show t.err.toNat ≤ 4 from he ▸ k.code_le_four⟩

/-- A state with the registers of a fitting one, and no error, is legal. -/
theorem State.legal_of_completed (hs : s.regsFit P) (hx : t.x = s.x) (he : t.err = 0) : t.Legal P :=
  ⟨State.regsFit_of_x_eq hs hx, show t.err.toNat ≤ 4 from he ▸ Nat.zero_le 4⟩

/-- The gcd of two values that fit, fits: it is not above the one that is not 0, and 0 if both are (00_scope R11). -/
theorem fits_gcd {a b : Nat} (ha : P.fits a = true) (hb : P.fits b = true) : P.fits (Nat.gcd a b) = true := by
  rcases Nat.eq_zero_or_pos a with rfl | h
  · rw [Nat.gcd_zero_left]; exact hb
  · exact fits_of_le (Nat.gcd_le_left b h) ha

/-! ## The commands -/

theorem modexpCmd_legal (hs : s.regsFit P) (rs1 rs2 rs3 rd : RegIdx) : (modexpCmd rs1 rs2 rs3 rd s).Legal P := by
  rcases modexpCmd_cases rs1 rs2 rs3 rd s with ⟨-, e⟩ | ⟨hm, e⟩
  · exact e ▸ State.legal_of_raised hs .operandRange rfl rfl
  · have hv := fits_of_le (modexpVal_lt (s.getReg rs1) (s.getReg rs2) _ hm).le (hs rs3)
    exact e ▸ State.legal_of_completed (State.regsFit_setReg hs rd hv) rfl rfl

theorem modinvCmd_legal (hs : s.regsFit P) (rs1 rs2 rd : RegIdx) : (modinvCmd P rs1 rs2 rd s).Legal P := by
  rcases modinvCmd_cases P rs1 rs2 rd s with ⟨-, e⟩ | ⟨hm, -, e⟩ | ⟨hm, -, e⟩
  · exact e ▸ State.legal_of_completed (State.regsFit_setReg hs rd (fits_zero P)) rfl rfl
  · have hv := fits_of_le (inverseVal_lt (s.getReg rs1) _ hm).le (hs rs2)
    exact e ▸ State.legal_of_completed (State.regsFit_setReg hs rd hv) rfl rfl
  · have hv := fits_of_le (Nat.mod_lt (P.unspecifiedValue s.freeDraws) (Nat.pos_of_ne_zero hm)).le (hs rs2)
    exact e ▸ State.legal_of_completed (State.regsFit_setReg hs rd hv) rfl rfl

theorem gcdCmd_legal (hs : s.regsFit P) (rs1 rs2 rd : RegIdx) : (gcdCmd rs1 rs2 rd s).Legal P :=
  gcdCmd_eq rs1 rs2 rd s ▸
    State.legal_of_completed (State.regsFit_setReg hs rd (fits_gcd (hs rs1) (hs rs2))) rfl rfl

theorem primetestCmd_legal (hs : s.regsFit P) (rs1 : RegIdx) (iter : BitVec 8) (sbits : BitVec 15) :
    (primetestCmd P rs1 iter sbits s).Legal P := by
  rcases primetestCmd_cases P rs1 iter sbits s with
    ⟨-, e⟩ | ⟨-, e⟩ | ⟨-, -, e⟩ | ⟨-, _, -, -, ⟨_, -, -, e⟩ | ⟨-, e⟩⟩
  · exact e ▸ State.legal_of_raised hs .operandRange rfl rfl
  · exact e ▸ State.legal_of_completed hs rfl rfl
  · exact e ▸ State.legal_of_completed hs rfl rfl
  · exact e ▸ State.legal_of_completed hs rfl rfl
  · exact e ▸ State.legal_of_raised hs .entropySourceUnavailable rfl rfl

/-- FACTOR writes a divisor of its operand and the cofactor, or 0s; only the 2 it writes for 0 could be above the
operand, and there the model clips (log entry 10). -/
theorem factorCmd_legal (hs : s.regsFit P) (rs1 rd rd2 : RegIdx) : (factorCmd P rs1 rd rd2 s).Legal P := by
  have h0 := fits_zero P
  have hn := hs rs1
  have hdiv (d : Nat) : P.fits (s.getReg rs1 / d) = true := fits_of_le (Nat.div_le_self _ d) hn
  rcases factorCmd_cases P rs1 rd rd2 s with
    ⟨-, e⟩ | ⟨-, -, e⟩ | ⟨-, -, h2, e⟩ | ⟨-, -, -, e⟩ | ⟨-, hle, -, e⟩ |
    ⟨-, -, -, ⟨-, e⟩ | ⟨_, -, -, ⟨_, _, d, -, -, hw, e⟩ | ⟨-, e⟩ | ⟨_, -, -, e⟩⟩⟩
  · exact e ▸ State.legal_of_raised hs .illegalCommand rfl rfl
  · exact e ▸ State.legal_of_raised (State.regsFit_setReg_setReg hs rd rd2 h0 h0) .invalidModulus rfl rfl
  · exact e ▸ State.legal_of_raised (State.regsFit_setReg_setReg hs rd rd2 h2 h0) .invalidModulus rfl rfl
  · exact e ▸ State.legal_of_raised (State.regsFit_setReg_setReg hs rd rd2 (clip_fits P _) h0) .invalidModulus rfl rfl
  · exact e ▸ State.legal_of_completed (State.regsFit_setReg_setReg hs rd rd2 (fits_of_le hle hn) (hdiv 2)) rfl rfl
  · exact e ▸ State.legal_of_raised (State.regsFit_setReg_setReg hs rd rd2 h0 h0) .invalidModulus rfl rfl
  · obtain ⟨-, hlt, -⟩ := rhoWalk_found _ _ _ _ _ _ hw
    exact e ▸ State.legal_of_completed (State.regsFit_setReg_setReg hs rd rd2 (fits_of_le hlt.le hn) (hdiv d)) rfl rfl
  · exact e ▸ State.legal_of_raised hs .entropySourceUnavailable rfl rfl
  · exact e ▸ State.legal_of_raised hs .entropySourceUnavailable rfl rfl

/-- Every instruction ends in a legal state if its registers fit, whatever `ERR` was before. -/
theorem effect_legal (hs : s.regsFit P) (i : Instr) : (effect P i s).Legal P := by
  cases i with
  | modexp rs1 rs2 rs3 rd => exact modexpCmd_legal hs rs1 rs2 rs3 rd
  | modinv rs1 rs2 rd => exact modinvCmd_legal hs rs1 rs2 rd
  | gcd rs1 rs2 rd => exact gcdCmd_legal hs rs1 rs2 rd
  | primetest rs1 iter sbits => exact primetestCmd_legal hs rs1 iter sbits
  | factor rs1 rd rd2 => exact factorCmd_legal hs rs1 rd rd2
  | encrypt rs1 rs2 rs3 rd => exact modexpCmd_legal hs rs1 rs2 rs3 rd
  | decrypt rs1 rs2 rs3 rd => exact modexpCmd_legal hs rs1 rs2 rs3 rd

end FittingRegisters

/-! ## The host's transactions -/

/-- `Reset()` leaves a legal state, whatever the state before. -/
theorem hostReset_legal (P : Params) (s : State) : (hostReset P s).Legal P := by
  refine ⟨fun i => ?_, Nat.zero_le 4⟩
  have hx : (hostReset P s).getReg i = P.clip (P.unspecifiedValue (s.freeDraws + i.val)) := by
    simp [State.getReg, hostReset]
  rw [hx]
  exact clip_fits P _

/-- Settles O49: a turn of the host is one of five transactions, or idle; WriteReg takes a value that fits only, the
reads change nothing of the MEU, Reset clips what it draws, and an Issue runs an instruction or raises IllegalCommand. -/
theorem stepKeepsLegal : Obligations.StepKeepsLegal := by
  unfold Obligations.StepKeepsLegal
  intro s t hs h
  obtain ⟨hfit, herr⟩ := hs
  rcases hostTurn_next Config.chip h with
    rfl | ⟨op, rest, -, ⟨i, v, -, hv, rfl⟩ | ⟨i, -, rfl⟩ | ⟨-, rfl⟩ | ⟨w, i, -, -, hi⟩ | ⟨w, e, -, -, rfl⟩ | ⟨-, rfl⟩⟩
  · exact ⟨hfit, herr⟩
  · exact ⟨State.regsFit_setReg (s := { s with pending := rest }) hfit i hv, herr⟩
  · exact ⟨hfit, herr⟩
  · exact ⟨hfit, herr⟩
  · rw [exec_next hi]
    exact effect_legal (s := { s with pending := rest }) hfit i
  · exact State.legal_of_raised hfit .illegalCommand rfl rfl
  · exact hostReset_legal Config.chip _

end Sys2Proof.Machine
end

section
/-! PROOF. The state of the MEU (10_state): what reset leaves, what an instruction can depend on and what it can write.
That is said once, in `effect_agree`; here it is read for one state (the frame) and for two (noninterference), and
then carried along a host script. -/

namespace Sys2Proof.Machine

/-! ## Reset (10_state R33) -/

/-- Settles O16: reset is a fixed state, whose STATUS word evaluates to 0. -/
theorem resetStatusIsZero : Obligations.ResetStatusIsZero := ⟨rfl, rfl, rfl⟩

@[simp] theorem State.getReg_reset (i : RegIdx) : State.reset.getReg i = 0 := by
  simp [State.getReg, State.reset]

/-- Settles O50: the value a register holds after reset by log entry 1 fits whatever the width is. -/
theorem resetIsLegal : Obligations.ResetIsLegal := by
  refine ⟨fun i => ?_, Nat.zero_le 4⟩
  rw [State.getReg_reset]
  exact fits_zero Config.chip

/-! ## One command -/

/-- Settles O40: the two states have the same sources and positions, so the same writes, and `ERR` is one of them. -/
theorem errIsNotSticky : Obligations.ErrIsNotSticky := by
  unfold Obligations.ErrIsNotSticky
  intro i s e
  obtain ⟨writes, e', flag, q, d, -, -, h₁, h₂⟩ :=
    effect_agree Config.chip i { s with err := e } s (fun _ _ => rfl) rfl rfl
  rw [exec_eq, exec_eq, h₁, h₂]
  rfl

/-- Settles O41: the two states have the same sources and positions, so the same writes, and a write of PRIME is made
by a PRIMETEST that completes only. -/
theorem primeIsOnlyPrimetests : Obligations.PrimeIsOnlyPrimetests := by
  unfold Obligations.PrimeIsOnlyPrimetests
  intro i s t ht
  refine ⟨?_, fun b => ?_⟩
  · obtain ⟨writes, e, flag, q, d, -, hflag, h, -⟩ := effect_agree Config.chip i s s (fun _ _ => rfl) rfl rfl
    rw [exec_next ht, h]
    rcases hflag with rfl | ⟨rfl, hi⟩
    · exact .inl rfl
    · exact .inr ⟨hi, rfl⟩
  · obtain ⟨writes, e, flag, q, d, -, -, h, hb⟩ :=
      effect_agree Config.chip i s { s with prime := b } (fun _ _ => rfl) rfl rfl
    exact ⟨flag.getD b, by rw [exec_eq, hb, exec_next ht, h]; rfl⟩

/-- Settles O47: every write goes to a destination. -/
theorem onlyDestinationsAreWritten : Obligations.OnlyDestinationsAreWritten := by
  unfold Obligations.OnlyDestinationsAreWritten
  intro i s t ht
  obtain ⟨writes, e, flag, q, d, hw, -, h, -⟩ := effect_agree Config.chip i s s (fun _ _ => rfl) rfl rfl
  rw [exec_next ht, h]
  refine ⟨fun r hr => s.getReg_applied_of_not_mem writes e flag q d r ?_, rfl, rfl⟩
  rw [hw]
  split
  · exact hr
  · exact List.not_mem_nil

/-- Settles O48: the writes are the same, and name all destinations or none; so is the write of PRIME, if any. -/
theorem onlySourcesAreRead : Obligations.OnlySourcesAreRead := by
  unfold Obligations.OnlySourcesAreRead
  intro i s₁ s₂ t₁ t₂ hs hq hd ht₁ ht₂
  obtain ⟨writes, e, flag, q, d, hw, -, h₁, h₂⟩ := effect_agree Config.chip i s₁ s₂ hs hq hd
  rw [exec_next ht₁, exec_next ht₂, h₁, h₂]
  refine ⟨rfl, rfl, rfl, ?_, ?_⟩
  · cases flag with
    | none => exact .inr ⟨rfl, rfl⟩
    | some b => exact .inl rfl
  · split at hw
    · exact .inl fun r hr => State.getReg_applied_congr s₁ s₂ writes e flag q d r (.inl (hw ▸ hr))
    · obtain rfl := List.map_eq_nil_iff.mp hw
      exact .inr ⟨rfl, rfl⟩

/-! ## A whole script (70_reset R162) -/

/-- `u` is `s` but for the registers not written since reset, and for the host's script, which no transaction sees. -/
def State.AgreesOn (written : List RegIdx) (s u : State) : Prop :=
  (∀ r ∈ written, s.getReg r = u.getReg r) ∧ ∃ x pending, u = { s with x := x, pending := pending }

theorem State.AgreesOn.withPending {written : List RegIdx} {s u : State} (h : s.AgreesOn written u)
    (ops : List HostOp) : s.AgreesOn written { u with pending := ops } := by
  obtain ⟨hreg, x, pending, rfl⟩ := h
  exact ⟨hreg, x, ops, rfl⟩

/-- A write of the same value adds its register to those that agree. -/
theorem State.AgreesOn.setReg {written : List RegIdx} {s u : State} (h : s.AgreesOn written u) (i : RegIdx) (v : Nat) :
    (s.setReg i v).AgreesOn (i :: written) (u.setReg i v) := by
  obtain ⟨hreg, x, pending, rfl⟩ := h
  refine ⟨fun r hr => ?_, x.set i v, pending, rfl⟩
  rw [State.getReg_setReg, State.getReg_setReg]
  split
  · rfl
  · next hne => exact hreg r (List.mem_of_ne_of_mem hne hr)

/-- An instruction whose sources agree leaves its destinations agreeing, if it writes them at all. -/
theorem effect_agreesOn (P : Params) (i : Instr) {written : List RegIdx} {s u : State} (h : s.AgreesOn written u)
    (hsrc : ∀ r ∈ i.sources, r ∈ written) :
    (effect P i s).AgreesOn (if destsWritten (effect P i s).err then i.dests ++ written else written) (effect P i u) ∧
      (effect P i u).pending = u.pending := by
  obtain ⟨hreg, x, pending, rfl⟩ := h
  obtain ⟨writes, e, flag, q, d, hw, -, h₁, h₂⟩ :=
    effect_agree P i s { s with x := x, pending := pending } (fun r hr => hreg r (hsrc r hr)) rfl rfl
  rw [h₁, h₂]
  refine ⟨⟨fun r hr => State.getReg_applied_congr _ _ writes e flag q d r ?_, _, pending, rfl⟩, rfl⟩
  rw [hw]
  change r ∈ (if destsWritten e then i.dests ++ written else written) at hr
  split at hr
  · next he => rw [if_pos he]; exact (List.mem_append.mp hr).imp_right (hreg r)
  · exact .inr (hreg r hr)

/-- A transaction that reads only registers in which two states agree does the same in both, and they still agree. -/
theorem transact_agreesOn (P : Params) {op : HostOp} {written : List RegIdx} {s t u : State}
    (h : s.AgreesOn written u) (hread : readsInitialised written op = true) (ht : transact P op s = .next t) :
    ∃ v, transact P op u = .next v ∧ t.AgreesOn (writtenAfter written op t) v ∧ v.pending = u.pending := by
  have hread : ∀ r ∈ op.reads, r ∈ written := by simpa [readsInitialised] using hread
  cases op with
  | writeReg i v =>
    simp only [transact, hostWriteReg] at ht ⊢
    split at ht
    · next hv =>
      cases ht
      rw [if_pos hv]
      exact ⟨u.setReg i v, rfl, h.setReg i v, rfl⟩
    · cases ht
  | readReg i =>
    obtain ⟨hreg, x, pending, rfl⟩ := h
    cases ht
    refine ⟨_, rfl, ⟨hreg, x, pending, ?_⟩, rfl⟩
    rw [hostReadReg, hostReadReg, hreg i (hread i (List.mem_singleton_self i))]
  | readStatus =>
    obtain ⟨hreg, x, pending, rfl⟩ := h
    cases ht
    exact ⟨_, rfl, ⟨hreg, x, pending, rfl⟩, rfl⟩
  | issue w =>
    simp only [transact, hostIssue, writtenAfter, HostOp.reads] at ht hread ⊢
    cases hw : decode w with
    | ok i =>
      rw [hw] at ht hread
      obtain rfl := exec_next ht
      exact ⟨_, exec_eq i u, effect_agreesOn Config.chip i h hread⟩
    | error e =>
      rw [hw] at ht
      cases ht
      obtain ⟨hreg, x, pending, rfl⟩ := h
      exact ⟨_, rfl, ⟨hreg, x, pending, rfl⟩, rfl⟩
  | reset =>
    obtain ⟨-, x, pending, rfl⟩ := h
    cases ht
    exact ⟨_, rfl, ⟨fun r hr => absurd hr List.not_mem_nil, _, pending, rfl⟩, rfl⟩

/-- The first transaction of a safe run reads written registers only and gives a next state, and the rest is safe. -/
theorem safeRun_cons {P : Params} {op : HostOp} {ops : List HostOp} {written : List RegIdx} {s : State}
    (h : safeRun P (op :: ops) written s = true) :
    readsInitialised written op = true ∧
      ∃ t, transact P op s = .next t ∧ safeRun P ops (writtenAfter written op t) t = true := by
  rw [safeRun, Bool.and_eq_true] at h
  obtain ⟨hread, hrest⟩ := h
  split at hrest
  · next t ht => exact ⟨hread, t, ht, hrest⟩
  · cases hrest
  · cases hrest

/-- A safe run comes to one end: from every state that agrees on the written registers, with the script pending, the
machine performs the whole script and ends in that state, but for its registers. -/
theorem safeRun_endsAlike (ops : List HostOp) : ∀ (written : List RegIdx) (s : State),
    safeRun Config.chip ops written s = true →
      ∃ t : State, ∀ u, s.AgreesOn written u → u.pending = ops →
        ∃ x, steps ops.length u = some { t with x := x, pending := [] } := by
  induction ops with
  | nil =>
    intro written s _
    refine ⟨s, fun u hu hp => ?_⟩
    obtain ⟨-, x, pending, rfl⟩ := hu
    obtain rfl : pending = [] := hp
    exact ⟨x, rfl⟩
  | cons op ops ih =>
    intro written s hsafe
    obtain ⟨hread, s', hs', hrest⟩ := safeRun_cons hsafe
    obtain ⟨t, hend⟩ := ih _ s' hrest
    refine ⟨t, fun u hu hp => ?_⟩
    obtain ⟨u', hu', hagree, hp'⟩ := transact_agreesOn Config.chip (hu.withPending ops) hread hs'
    have hstep : step u = .next u' := (hostTurn_cons Config.chip hp).trans hu'
    obtain ⟨x, hx⟩ := hend u' hagree hp'
    exact ⟨x, by rw [List.length_cons, steps, hstep]; exact hx⟩

/-- Settles O51: both starts agree with the first on the registers written, so both come to the end of its safe run. -/
theorem initialisedScriptsIgnoreUnwrittenRegisters : Obligations.InitialisedScriptsIgnoreUnwrittenRegisters := by
  unfold Obligations.InitialisedScriptsIgnoreUnwrittenRegisters
  intro ops written s₁ s₂ hreg heq hsafe
  obtain ⟨t, hend⟩ := safeRun_endsAlike ops written s₁ hsafe
  have h₁ : s₁.AgreesOn written s₁ := ⟨fun _ _ => rfl, s₁.x, s₁.pending, rfl⟩
  have h₂ : s₁.AgreesOn written s₂ := ⟨hreg, s₂.x, s₁.pending, heq⟩
  obtain ⟨x₁, hx₁⟩ := hend _ (h₁.withPending ops) rfl
  obtain ⟨x₂, hx₂⟩ := hend _ (h₂.withPending ops) rfl
  exact ⟨_, _, hx₁, hx₂, rfl, rfl⟩

end Sys2Proof.Machine
end

section
/-! PROOF. The host port and the entropy port (20_memory). A turn performs the next transaction, so each transaction is
its own meaning. That a command ends with a legal error code, after no more entropy requests than it may make, is one
fact about the commands, `effect_endsWithin`, read off their case lemmas. -/

namespace Sys2Proof.Machine

/-! ## A turn of the host (20_memory R41, R45) -/

/-- A step performs the host's next transaction, on the state without it. -/
theorem step_cons {s : State} {op : HostOp} {rest : List HostOp} (h : s.pending = op :: rest) :
    step s = transact Config.chip op { s with pending := rest } := hostTurn_cons Config.chip h

theorem hostIssue_of_decode_ok {w : CmdWord} {i : Instr} (hd : decode w = .ok i) (s : State) :
    hostIssue w s = exec i s := by
  unfold hostIssue; rw [hd]

theorem hostIssue_of_decode_error {w : CmdWord} {e : IllegalWord} (hd : decode w = .error e) (s : State) :
    hostIssue w s = .next s.illegalCommand := by
  unfold hostIssue; rw [hd]

/-- Settles O10: the transaction is an Issue, and the decoder's answer selects `exec`. -/
theorem stepRunsDecodedInstruction : Obligations.StepRunsDecodedInstruction := by
  unfold Obligations.StepRunsDecodedInstruction
  intro s w rest i hp hd
  rw [step_cons hp]
  exact hostIssue_of_decode_ok hd _

/-- Settles O42: each arm of `exec` is its command's effect on the chip's parameters. -/
theorem execAnswersTheEffect : Obligations.ExecAnswersTheEffect := exec_eq

/-! ## Registers and STATUS through the port (20_memory R42 to R44) -/

/-- Settles O11: the transaction tests the width and writes one register. -/
theorem writeRegTransaction : Obligations.WriteRegTransaction := by
  unfold Obligations.WriteRegTransaction
  intro s i v rest hp
  rw [step_cons hp]
  rfl

/-- Settles O12: the transaction adds a reply, and no more. -/
theorem readRegTransaction : Obligations.ReadRegTransaction := by
  unfold Obligations.ReadRegTransaction
  intro s i rest hp
  rw [step_cons hp]
  rfl

/-- The STATUS word as a number: PRIME has the weight of bit 4 (10_state R26). -/
theorem State.statusWord_toNat (s : State) :
    s.statusWord.toNat = s.err.toNat + 16 * (if s.prime then 1 else 0) := by
  have happend : s.statusWord.toNat = (0#27 ++ BitVec.ofBool s.prime).toNat <<< 4 ||| s.err.toNat :=
    BitVec.toNat_append _ _
  have hprime : ∀ b : Bool, (0#27 ++ BitVec.ofBool b).toNat <<< 4 = 16 * (if b then 1 else 0) := by decide
  rw [happend, ← Nat.shiftLeft_add_eq_or_of_lt s.err.isLt, hprime, Nat.add_comm]

/-- Settles O13: the reply is the STATUS word, whose number is `statusWord_toNat`. -/
theorem readStatusTransaction : Obligations.ReadStatusTransaction := by
  unfold Obligations.ReadStatusTransaction
  intro s rest hp
  refine ⟨s.statusWord, s.statusWord_toNat, ?_⟩
  rw [step_cons hp]
  rfl

/-- Settles O14: the two transactions in turn, and the register file's laws of a read after a write. -/
theorem writeThenReadReturnsValue : Obligations.WriteThenReadReturnsValue := by
  unfold Obligations.WriteThenReadReturnsValue
  intro s i v rest hp hv
  refine ⟨State.setReg { s with pending := .readReg i :: rest } i v, _, ?_, readRegTransaction _ i rest rfl, ?_,
    rfl, rfl, rfl, fun j hj => State.getReg_setReg_of_ne _ i j v hj⟩
  · rw [writeRegTransaction s i v _ hp, if_pos hv]
    rfl
  · rw [State.getReg_setReg_self]
    rfl

/-! ## The entropy port (20_memory R46 to R48) -/

theorem randBits_lt {P : Params} {k q r : Nat} (h : randBits P k q = some r) : r < 2 ^ k := by
  obtain ⟨a, -, rfl⟩ := Option.map_eq_some_iff.mp h
  exact Nat.mod_lt a (Nat.two_pow_pos k)

theorem randRange_bounds {P : Params} {lo hi q v : Nat} (hle : lo ≤ hi) (h : randRange P lo hi q = some v) :
    lo ≤ v ∧ v ≤ hi := by
  obtain ⟨a, -, rfl⟩ := Option.map_eq_some_iff.mp h
  have := Nat.mod_lt a (show hi - lo + 1 > 0 by omega)
  omega

/-- The chip with an entropy port that gives every request the same raw answer. -/
def alwaysAnswers (a : Option Nat) : Params := { Config.chip with entropyAnswer := fun _ => a }

theorem randBits_alwaysAnswers {k r : Nat} (h : r < 2 ^ k) (q : Nat) :
    randBits (alwaysAnswers (some r)) k q = some r :=
  congrArg some (Nat.mod_eq_of_lt h)

theorem randRange_alwaysAnswers {lo hi v : Nat} (hlo : lo ≤ v) (hhi : v ≤ hi) (q : Nat) :
    randRange (alwaysAnswers (some (v - lo))) lo hi q = some v := by
  have hmod : (v - lo) % (hi - lo + 1) = v - lo := Nat.mod_eq_of_lt (by omega)
  exact congrArg some (show lo + (v - lo) % (hi - lo + 1) = v by omega)

/-- Settles O31: a raw answer is reduced to the request's range, and one in the range is answered by itself. -/
theorem entropyAnswersAreTheRange : Obligations.EntropyAnswersAreTheRange := by
  unfold Obligations.EntropyAnswersAreTheRange
  refine ⟨fun k q r => ⟨?_, ?_⟩, fun lo hi q v hle => ⟨?_, ?_⟩, fun k lo hi q => ?_⟩
  · rintro ⟨P, h⟩
    exact randBits_lt h
  · exact fun h => ⟨_, randBits_alwaysAnswers h q⟩
  · rintro ⟨P, h⟩
    exact randRange_bounds hle h
  · rintro ⟨hlo, hhi⟩
    exact ⟨_, randRange_alwaysAnswers hlo hhi q⟩
  · exact ⟨alwaysAnswers none, rfl, rfl⟩

/-! ## How a command ends (10_state R27; 20_memory R45, R49) -/

/-- `t` ends a command that began in `s`: its error code is legal, and at most `n` entropy requests were made. -/
def State.EndsWithin (n : Nat) (s t : State) : Prop :=
  t.errLegal ∧ ∃ k ≤ n, t.entropyReqs = s.entropyReqs + k

section

variable {s t : State} {n : Nat}

theorem State.endsWithin_of_completed (k : Nat) (he : t.err = 0) (hq : t.entropyReqs = s.entropyReqs + k)
    (hk : k ≤ n) : s.EndsWithin n t :=
  ⟨show t.err.toNat ≤ 4 from he ▸ Nat.zero_le 4, k, hk, hq⟩

theorem State.endsWithin_of_raised (kind : ErrKind) (k : Nat) (he : t.err = kind.code)
    (hq : t.entropyReqs = s.entropyReqs + k) (hk : k ≤ n) : s.EndsWithin n t :=
  ⟨show t.err.toNat ≤ 4 from he ▸ kind.code_le_four, k, hk, hq⟩

end

section

variable (P : Params) (s : State)

theorem modexpCmd_endsWithin (rs1 rs2 rs3 rd : RegIdx) : s.EndsWithin 0 (modexpCmd rs1 rs2 rs3 rd s) := by
  rcases modexpCmd_cases rs1 rs2 rs3 rd s with ⟨-, e⟩ | ⟨-, e⟩
  · exact e ▸ State.endsWithin_of_raised .operandRange 0 rfl rfl le_rfl
  · exact e ▸ State.endsWithin_of_completed 0 rfl rfl le_rfl

theorem modinvCmd_endsWithin (rs1 rs2 rd : RegIdx) : s.EndsWithin 0 (modinvCmd P rs1 rs2 rd s) := by
  rcases modinvCmd_cases P rs1 rs2 rd s with ⟨-, e⟩ | ⟨-, -, e⟩ | ⟨-, -, e⟩
  · exact e ▸ State.endsWithin_of_completed 0 rfl rfl le_rfl
  · exact e ▸ State.endsWithin_of_completed 0 rfl rfl le_rfl
  · exact e ▸ State.endsWithin_of_completed 0 rfl rfl le_rfl

theorem gcdCmd_endsWithin (rs1 rs2 rd : RegIdx) : s.EndsWithin 0 (gcdCmd rs1 rs2 rd s) :=
  gcdCmd_eq rs1 rs2 rd s ▸ State.endsWithin_of_completed 0 rfl rfl le_rfl

/-- One request for each trial begun, also for the one that ends the test (42_primetest R101). -/
theorem primetestCmd_endsWithin (rs1 : RegIdx) (iter : BitVec 8) (sbits : BitVec 15) :
    s.EndsWithin iter.toNat (primetestCmd P rs1 iter sbits s) := by
  rcases primetestCmd_cases P rs1 iter sbits s with
    ⟨-, e⟩ | ⟨-, e⟩ | ⟨-, -, e⟩ | ⟨-, j, hj, -, ⟨_, -, -, e⟩ | ⟨-, e⟩⟩
  · exact e ▸ State.endsWithin_of_raised .operandRange 0 rfl rfl (Nat.zero_le _)
  · exact e ▸ State.endsWithin_of_completed 0 rfl rfl (Nat.zero_le _)
  · exact e ▸ State.endsWithin_of_completed iter.toNat rfl rfl le_rfl
  · exact e ▸ State.endsWithin_of_completed (j + 1) rfl rfl hj
  · exact e ▸ State.endsWithin_of_raised .entropySourceUnavailable (j + 1) rfl rfl hj

/-- Two requests for each attempt begun, or one if it gets no seed (43_factor R112, R115). -/
theorem factorCmd_endsWithin (rs1 rd rd2 : RegIdx) :
    s.EndsWithin (2 * P.rhoMaxAttempts) (factorCmd P rs1 rd rd2 s) := by
  rcases factorCmd_cases P rs1 rd rd2 s with
    ⟨-, e⟩ | ⟨-, -, e⟩ | ⟨-, -, -, e⟩ | ⟨-, -, -, e⟩ | ⟨-, -, -, e⟩ |
    ⟨-, -, -, ⟨-, e⟩ | ⟨j, hj, -, ⟨_, _, _, -, -, -, e⟩ | ⟨-, e⟩ | ⟨_, -, -, e⟩⟩⟩
  · exact e ▸ State.endsWithin_of_raised .illegalCommand 0 rfl rfl (Nat.zero_le _)
  · exact e ▸ State.endsWithin_of_raised .invalidModulus 0 rfl rfl (Nat.zero_le _)
  · exact e ▸ State.endsWithin_of_raised .invalidModulus 0 rfl rfl (Nat.zero_le _)
  · exact e ▸ State.endsWithin_of_raised .invalidModulus 0 rfl rfl (Nat.zero_le _)
  · exact e ▸ State.endsWithin_of_completed 0 rfl rfl (Nat.zero_le _)
  · exact e ▸ State.endsWithin_of_raised .invalidModulus (2 * P.rhoMaxAttempts) rfl rfl le_rfl
  · exact e ▸ State.endsWithin_of_completed (2 * j + 2) rfl rfl (by omega)
  · exact e ▸ State.endsWithin_of_raised .entropySourceUnavailable (2 * j + 1) rfl rfl (by omega)
  · exact e ▸ State.endsWithin_of_raised .entropySourceUnavailable (2 * j + 2) rfl rfl (by omega)

/-- Every instruction ends, with a legal error code and within its bound on requests, whatever the state. -/
theorem effect_endsWithin (i : Instr) : s.EndsWithin (i.maxRequests P) (effect P i s) := by
  cases i with
  | modexp rs1 rs2 rs3 rd => exact modexpCmd_endsWithin s rs1 rs2 rs3 rd
  | modinv rs1 rs2 rd => exact modinvCmd_endsWithin P s rs1 rs2 rd
  | gcd rs1 rs2 rd => exact gcdCmd_endsWithin s rs1 rs2 rd
  | primetest rs1 iter sbits => exact primetestCmd_endsWithin P s rs1 iter sbits
  | factor rs1 rd rd2 => exact factorCmd_endsWithin P s rs1 rd rd2
  | encrypt rs1 rs2 rs3 rd => exact modexpCmd_endsWithin s rs1 rs2 rs3 rd
  | decrypt rs1 rs2 rs3 rd => exact modexpCmd_endsWithin s rs1 rs2 rs3 rd

end

/-- Settles O32: the requests of the instruction's effect are counted in `effect_endsWithin`. -/
theorem entropyRequestsAreBounded : Obligations.EntropyRequestsAreBounded := by
  unfold Obligations.EntropyRequestsAreBounded
  intro i s t ht
  obtain ⟨-, k, hk, hq⟩ := effect_endsWithin Config.chip s i
  rw [exec_next ht]
  omega

/-- Settles O18: a legal word runs an instruction, which ends and leaves the host's fields alone; an illegal one raises
IllegalCommand. -/
theorem everyIssueEnds : Obligations.EveryIssueEnds := by
  unfold Obligations.EveryIssueEnds
  intro s w rest hp
  cases hd : decode w with
  | ok i =>
    have hstep := stepRunsDecodedInstruction s w rest i hp hd
    have hexec := exec_eq i { s with pending := rest }
    obtain ⟨herr, -⟩ := effect_endsWithin Config.chip { s with pending := rest } i
    obtain ⟨-, hpending, hreplies⟩ := onlyDestinationsAreWritten i _ _ hexec
    exact ⟨_, hstep.trans hexec, herr, hpending, hreplies⟩
  | error e =>
    exact ⟨_, (step_cons hp).trans (hostIssue_of_decode_error hd _), ErrKind.illegalCommand.code_le_four, rfl, rfl⟩

end Sys2Proof.Machine
end

section
/-! PROOF. The command words (30_encoding R60 to R67). A word is taken apart as the number it is: each field is a
quotient and a remainder, each format is a sum, so that reading a field back, and building a word again from its fields,
are arithmetic. The decoder is opened once, one equation for each opcode, and everything said about it follows from
those. -/

namespace Sys2Proof

/-! ## The fields of a word, as numbers (30_encoding R61, R62) -/

/-- A field of a word, as a number: the bits above it are cut off, the bits below it are divided away. -/
theorem extractLsb'_toNat_eq_div_mod (w : CmdWord) (s n : Nat) :
    (w.extractLsb' s n).toNat = w.toNat / 2 ^ s % 2 ^ n := by
  rw [BitVec.extractLsb'_toNat, Nat.shiftRight_eq_div_pow]

section
variable (w : CmdWord)

theorem opcodeOf_toNat : (opcodeOf w).toNat = w.toNat / 2 ^ 26 % 2 ^ 6 := extractLsb'_toNat_eq_div_mod w 26 6
theorem rs1Of_val : (rs1Of w).val = w.toNat / 2 ^ 23 % 2 ^ 3 := extractLsb'_toNat_eq_div_mod w 23 3
theorem rs2Of_val : (rs2Of w).val = w.toNat / 2 ^ 20 % 2 ^ 3 := extractLsb'_toNat_eq_div_mod w 20 3
theorem rs3Of_val : (rs3Of w).val = w.toNat / 2 ^ 17 % 2 ^ 3 := extractLsb'_toNat_eq_div_mod w 17 3
theorem rdOf_val : (rdOf w).val = w.toNat / 2 ^ 14 % 2 ^ 3 := extractLsb'_toNat_eq_div_mod w 14 3
theorem rd2Of_val : (rd2Of w).val = w.toNat / 2 ^ 11 % 2 ^ 3 := extractLsb'_toNat_eq_div_mod w 11 3
theorem zeroOf_toNat : (zeroOf w).toNat = w.toNat / 2 ^ 0 % 2 ^ 11 := extractLsb'_toNat_eq_div_mod w 0 11
theorem iterOf_toNat : (iterOf w).toNat = w.toNat / 2 ^ 15 % 2 ^ 8 := extractLsb'_toNat_eq_div_mod w 15 8
theorem sbitsOf_toNat : (sbitsOf w).toNat = w.toNat / 2 ^ 0 % 2 ^ 15 := extractLsb'_toNat_eq_div_mod w 0 15

end

/-! ## The formats, as numbers -/

/-- Fields side by side, as a number. -/
theorem append_toNat_eq_add {m n : Nat} (x : BitVec m) (y : BitVec n) :
    (x ++ y).toNat = x.toNat * 2 ^ n + y.toNat := by
  rw [BitVec.toNat_append, ← Nat.shiftLeft_add_eq_or_of_lt y.isLt, Nat.shiftLeft_eq]

theorem rFormat_toNat (op : BitVec 6) (rs1 rs2 rs3 rd rd2 : RegIdx) :
    (rFormat op rs1 rs2 rs3 rd rd2).toNat =
      op.toNat * 2 ^ 26 + rs1 * 2 ^ 23 + rs2 * 2 ^ 20 + rs3 * 2 ^ 17 + rd * 2 ^ 14 + rd2 * 2 ^ 11 := by
  rw [rFormat, BitVec.toNat_cast]
  simp only [append_toNat_eq_add, BitVec.toNat_ofFin, BitVec.toNat_ofNat]
  omega

theorem pFormat_toNat (op : BitVec 6) (rs1 : RegIdx) (iter : BitVec 8) (sbits : BitVec 15) :
    (pFormat op rs1 iter sbits).toNat = op.toNat * 2 ^ 26 + rs1 * 2 ^ 23 + iter.toNat * 2 ^ 15 + sbits.toNat := by
  rw [pFormat, BitVec.toNat_cast]
  simp only [append_toNat_eq_add, BitVec.toNat_ofFin]
  omega

/-! ## Reading the fields of a format back -/

section
variable (op : BitVec 6) (rs1 rs2 rs3 rd rd2 : RegIdx)

@[simp] theorem opcodeOf_rFormat : opcodeOf (rFormat op rs1 rs2 rs3 rd rd2) = op := by
  apply BitVec.eq_of_toNat_eq; rw [opcodeOf_toNat, rFormat_toNat]; omega
@[simp] theorem rs1Of_rFormat : rs1Of (rFormat op rs1 rs2 rs3 rd rd2) = rs1 := by
  apply Fin.ext; rw [rs1Of_val, rFormat_toNat]; omega
@[simp] theorem rs2Of_rFormat : rs2Of (rFormat op rs1 rs2 rs3 rd rd2) = rs2 := by
  apply Fin.ext; rw [rs2Of_val, rFormat_toNat]; omega
@[simp] theorem rs3Of_rFormat : rs3Of (rFormat op rs1 rs2 rs3 rd rd2) = rs3 := by
  apply Fin.ext; rw [rs3Of_val, rFormat_toNat]; omega
@[simp] theorem rdOf_rFormat : rdOf (rFormat op rs1 rs2 rs3 rd rd2) = rd := by
  apply Fin.ext; rw [rdOf_val, rFormat_toNat]; omega
@[simp] theorem rd2Of_rFormat : rd2Of (rFormat op rs1 rs2 rs3 rd rd2) = rd2 := by
  apply Fin.ext; rw [rd2Of_val, rFormat_toNat]; omega
@[simp] theorem zeroOf_rFormat : zeroOf (rFormat op rs1 rs2 rs3 rd rd2) = 0 := by
  apply BitVec.eq_of_toNat_eq; rw [zeroOf_toNat, rFormat_toNat]; change _ = 0; omega

end

section
variable (op : BitVec 6) (rs1 : RegIdx) (iter : BitVec 8) (sbits : BitVec 15)

@[simp] theorem opcodeOf_pFormat : opcodeOf (pFormat op rs1 iter sbits) = op := by
  apply BitVec.eq_of_toNat_eq; rw [opcodeOf_toNat, pFormat_toNat]; omega
@[simp] theorem rs1Of_pFormat : rs1Of (pFormat op rs1 iter sbits) = rs1 := by
  apply Fin.ext; rw [rs1Of_val, pFormat_toNat]; omega
@[simp] theorem iterOf_pFormat : iterOf (pFormat op rs1 iter sbits) = iter := by
  apply BitVec.eq_of_toNat_eq; rw [iterOf_toNat, pFormat_toNat]; omega
@[simp] theorem sbitsOf_pFormat : sbitsOf (pFormat op rs1 iter sbits) = sbits := by
  apply BitVec.eq_of_toNat_eq; rw [sbitsOf_toNat, pFormat_toNat]; omega

end

/-! ## Building a word from its fields: the fields of a format leave out no bit but R61's `zero` -/

theorem rFormat_of_fields {w : CmdWord} (hz : zeroOf w = 0) :
    rFormat (opcodeOf w) (rs1Of w) (rs2Of w) (rs3Of w) (rdOf w) (rd2Of w) = w := by
  have hzero : w.toNat / 2 ^ 0 % 2 ^ 11 = 0 := by rw [← zeroOf_toNat, hz]; rfl
  apply BitVec.eq_of_toNat_eq
  rw [rFormat_toNat, opcodeOf_toNat, rs1Of_val, rs2Of_val, rs3Of_val, rdOf_val, rd2Of_val]
  omega

theorem pFormat_of_fields (w : CmdWord) : pFormat (opcodeOf w) (rs1Of w) (iterOf w) (sbitsOf w) = w := by
  apply BitVec.eq_of_toNat_eq
  rw [pFormat_toNat, opcodeOf_toNat, rs1Of_val, iterOf_toNat, sbitsOf_toNat]
  omega

/-! ## The decoder, one equation for each opcode (30_encoding R64) -/

section
variable {w : CmdWord}

theorem decode_of_opModexp (h : opcodeOf w = opModexp) :
    decode w = if rd2Of w = 0 ∧ zeroOf w = 0 then .ok (.modexp (rs1Of w) (rs2Of w) (rs3Of w) (rdOf w))
      else .error .unusedFieldNotZero := by
  rw [decode, if_pos h]

theorem decode_of_opModinv (h : opcodeOf w = opModinv) :
    decode w = if rs3Of w = 0 ∧ rd2Of w = 0 ∧ zeroOf w = 0 then .ok (.modinv (rs1Of w) (rs2Of w) (rdOf w))
      else .error .unusedFieldNotZero := by
  rw [decode, h, if_neg (by decide), if_pos rfl]

theorem decode_of_opGcd (h : opcodeOf w = opGcd) :
    decode w = if rs3Of w = 0 ∧ rd2Of w = 0 ∧ zeroOf w = 0 then .ok (.gcd (rs1Of w) (rs2Of w) (rdOf w))
      else .error .unusedFieldNotZero := by
  rw [decode, h, if_neg (by decide), if_neg (by decide), if_pos rfl]

theorem decode_of_opPrimetest (h : opcodeOf w = opPrimetest) :
    decode w = .ok (.primetest (rs1Of w) (iterOf w) (sbitsOf w)) := by
  rw [decode, h, if_neg (by decide), if_neg (by decide), if_neg (by decide), if_pos rfl]

theorem decode_of_opFactor (h : opcodeOf w = opFactor) :
    decode w = if rs2Of w = 0 ∧ rs3Of w = 0 ∧ zeroOf w = 0 then
        if rdOf w = rd2Of w then .error .factorSameDestination else .ok (.factor (rs1Of w) (rdOf w) (rd2Of w))
      else .error .unusedFieldNotZero := by
  rw [decode, h, if_neg (by decide), if_neg (by decide), if_neg (by decide), if_neg (by decide), if_pos rfl]

theorem decode_of_unassigned (h : opcodeOf w = 0 ∨ 6 ≤ (opcodeOf w).toNat) : decode w = .error .unassignedOpcode := by
  have hne : ∀ op : BitVec 6, op.toNat ≠ 0 → op.toNat < 6 → opcodeOf w ≠ op := by
    rintro op h0 h6 rfl
    rcases h with h | h
    · exact h0 (by rw [h]; rfl)
    · omega
  rw [decode, if_neg (hne opModexp (by decide) (by decide)), if_neg (hne opModinv (by decide) (by decide)),
    if_neg (hne opGcd (by decide) (by decide)), if_neg (hne opPrimetest (by decide) (by decide)),
    if_neg (hne opFactor (by decide) (by decide))]

end

/-- Every opcode is one of the five or unassigned. -/
theorem opcode_cases (op : BitVec 6) :
    op = opModexp ∨ op = opModinv ∨ op = opGcd ∨ op = opPrimetest ∨ op = opFactor ∨ op = 0 ∨ 6 ≤ op.toNat := by
  revert op; decide

end Sys2Proof
end

section
/-! PROOF. Encoding and decoding agree, and the decoder is the opcode map (30_encoding R63 to R67). An instruction's
fields read back from its word; a word that decodes has 0 in the fields its operation leaves out, so the used ones build
it again. The rows of the opcode map and the list of illegal words are read off these two. -/

namespace Sys2Proof

open Machine

/-! ## Encoding, then decoding -/

theorem decode_modexp_word (rs1 rs2 rs3 rd : RegIdx) :
    decode (rFormat opModexp rs1 rs2 rs3 rd 0) = .ok (.modexp rs1 rs2 rs3 rd) := by
  rw [decode_of_opModexp (opcodeOf_rFormat ..)]
  simp

/-- Settles O1: the word's opcode selects the decoder's equation, and every field reads back. -/
theorem decodeOfEncode : Obligations.DecodeOfEncode := by
  unfold Obligations.DecodeOfEncode
  intro i hi
  cases i with
  | modexp rs1 rs2 rs3 rd => exact decode_modexp_word rs1 rs2 rs3 rd
  | modinv rs1 rs2 rd => rw [encode, decode_of_opModinv (opcodeOf_rFormat ..)]; simp [Instr.core]
  | gcd rs1 rs2 rd => rw [encode, decode_of_opGcd (opcodeOf_rFormat ..)]; simp [Instr.core]
  | primetest rs1 iter sbits => rw [encode, decode_of_opPrimetest (opcodeOf_pFormat ..)]; simp [Instr.core]
  | factor rs1 rd rd2 =>
    have hne : rd ≠ rd2 := of_decide_eq_true hi
    rw [encode, decode_of_opFactor (opcodeOf_rFormat ..)]
    simp [Instr.core, hne]
  | encrypt rs1 rs2 rs3 rd => exact decode_modexp_word rs1 rs2 rs3 rd
  | decrypt rs1 rs2 rs3 rd => exact decode_modexp_word rs1 rs2 rs3 rd

/-- Settles O6: the fields unused by FACTOR are 0 in the word, and its two destinations are one; the effect's first
branch is the same check. -/
theorem factorSameDestinationIsIllegal : Obligations.FactorSameDestinationIsIllegal := by
  unfold Obligations.FactorSameDestinationIsIllegal
  intro rs1 rd
  refine ⟨?_, fun s => ?_⟩
  · rw [encode, decode_of_opFactor (opcodeOf_rFormat ..)]
    simp
  · have heffect : factorCmd Config.chip rs1 rd rd s = s.illegalCommand := if_pos rfl
    rw [exec_eq, effect, heffect]
    rfl

/-- Settles O3: the two formats as numbers. -/
theorem encodedFieldPositions : Obligations.EncodedFieldPositions := by
  unfold Obligations.EncodedFieldPositions
  refine ⟨fun rs1 rs2 rs3 rd i hi => ?_, fun rs1 rs2 rd => ?_, fun rs1 rs2 rd => ?_, fun rs1 iter sbits => ?_,
    fun rs1 rd rd2 => ?_⟩
  · have hword : encode i = rFormat opModexp rs1 rs2 rs3 rd 0 := by
      simp only [List.mem_cons, List.not_mem_nil, or_false] at hi
      obtain rfl | rfl | rfl := hi <;> rfl
    rw [hword, rFormat_toNat]
    simp [opModexp]
  · simp [encode, rFormat_toNat, opModinv]
  · simp [encode, rFormat_toNat, opGcd]
  · simp [encode, pFormat_toNat, opPrimetest]
  · simp [encode, rFormat_toNat, opFactor]

/-! ## Decoding, then encoding -/

theorem ite_ok_error_eq_ok_iff {ε α : Type} {p : Prop} [Decidable p] {a b : α} {e : ε} :
    (if p then Except.ok a else .error e) = .ok b ↔ p ∧ a = b := by
  by_cases hp : p <;> simp [hp]

theorem ite_ok_error_isError_iff {ε α : Type} {p : Prop} [Decidable p] {a : α} {e : ε} :
    (∃ e', (if p then Except.ok a else .error e) = .error e') ↔ ¬ p := by
  by_cases hp : p <;> simp [hp]

/-- Every way a word can decode: which operation it is, and which fields are 0. -/
theorem decode_ok_cases {w : CmdWord} {i : Instr} (h : decode w = .ok i) :
    (i = .modexp (rs1Of w) (rs2Of w) (rs3Of w) (rdOf w) ∧ opcodeOf w = opModexp ∧ rd2Of w = 0 ∧ zeroOf w = 0) ∨
    (i = .modinv (rs1Of w) (rs2Of w) (rdOf w) ∧ opcodeOf w = opModinv ∧ rs3Of w = 0 ∧ rd2Of w = 0 ∧ zeroOf w = 0) ∨
    (i = .gcd (rs1Of w) (rs2Of w) (rdOf w) ∧ opcodeOf w = opGcd ∧ rs3Of w = 0 ∧ rd2Of w = 0 ∧ zeroOf w = 0) ∨
    (i = .primetest (rs1Of w) (iterOf w) (sbitsOf w) ∧ opcodeOf w = opPrimetest) ∨
    (i = .factor (rs1Of w) (rdOf w) (rd2Of w) ∧ opcodeOf w = opFactor ∧ rs2Of w = 0 ∧ rs3Of w = 0 ∧ zeroOf w = 0 ∧
      rdOf w ≠ rd2Of w) := by
  rcases opcode_cases (opcodeOf w) with hop | hop | hop | hop | hop | hop
  · rw [decode_of_opModexp hop, ite_ok_error_eq_ok_iff] at h
    obtain ⟨hz, hi⟩ := h
    exact .inl ⟨hi.symm, hop, hz⟩
  · rw [decode_of_opModinv hop, ite_ok_error_eq_ok_iff] at h
    obtain ⟨hz, hi⟩ := h
    exact .inr (.inl ⟨hi.symm, hop, hz⟩)
  · rw [decode_of_opGcd hop, ite_ok_error_eq_ok_iff] at h
    obtain ⟨hz, hi⟩ := h
    exact .inr (.inr (.inl ⟨hi.symm, hop, hz⟩))
  · rw [decode_of_opPrimetest hop] at h
    exact .inr (.inr (.inr (.inl ⟨(Except.ok.inj h).symm, hop⟩)))
  · rw [decode_of_opFactor hop] at h
    split_ifs at h with hz hd
    obtain ⟨hrs2, hrs3, hzero⟩ := hz
    exact .inr (.inr (.inr (.inr ⟨(Except.ok.inj h).symm, hop, hrs2, hrs3, hzero, hd⟩)))
  · rw [decode_of_unassigned hop] at h
    contradiction

/-- Settles O2: the fields an operation uses build the word again, since it decodes only with 0 in the others. -/
theorem encodeOfDecode : Obligations.EncodeOfDecode := by
  unfold Obligations.EncodeOfDecode
  intro w i h
  rcases decode_ok_cases h with ⟨rfl, hop, hrd2, hz⟩ | ⟨rfl, hop, hrs3, hrd2, hz⟩ | ⟨rfl, hop, hrs3, hrd2, hz⟩ |
    ⟨rfl, hop⟩ | ⟨rfl, hop, hrs2, hrs3, hz, hne⟩
  · refine ⟨?_, rfl, rfl⟩
    have hw := rFormat_of_fields hz
    rwa [hop, hrd2] at hw
  · refine ⟨?_, rfl, rfl⟩
    have hw := rFormat_of_fields hz
    rwa [hop, hrs3, hrd2] at hw
  · refine ⟨?_, rfl, rfl⟩
    have hw := rFormat_of_fields hz
    rwa [hop, hrs3, hrd2] at hw
  · refine ⟨?_, rfl, rfl⟩
    have hw := pFormat_of_fields w
    rwa [hop] at hw
  · refine ⟨?_, decide_eq_true hne, rfl⟩
    have hw := rFormat_of_fields hz
    rwa [hop, hrs2, hrs3] at hw

/-! ## The opcode map (30_encoding R63) -/

theorem encode_mem_row (i : Instr) : encode i &&& i.maskWord = i.matchWord := by
  cases i with
  | modexp rs1 rs2 rs3 rd => exact Laws.OpcodeMap.modexp rs1 rs2 rs3 rd
  | modinv rs1 rs2 rd => exact Laws.OpcodeMap.modinv rs1 rs2 rd
  | gcd rs1 rs2 rd => exact Laws.OpcodeMap.gcd rs1 rs2 rd
  | primetest rs1 iter sbits => exact Laws.OpcodeMap.primetest rs1 iter sbits
  | factor rs1 rd rd2 => exact Laws.OpcodeMap.factor rs1 rd rd2
  | encrypt rs1 rs2 rs3 rd => exact Laws.OpcodeMap.encrypt rs1 rs2 rs3 rd
  | decrypt rs1 rs2 rs3 rd => exact Laws.OpcodeMap.decrypt rs1 rs2 rs3 rd

/-- A word that decodes is in its operation's row, because it is the word of what it decodes to. -/
theorem mem_row_of_decode {w : CmdWord} {i : Instr} (h : decode w = .ok i) : w &&& i.maskWord = i.matchWord := by
  obtain ⟨hw, -, -⟩ := encodeOfDecode w i h
  have hrow := encode_mem_row i
  rwa [hw] at hrow

/-- A field that the mask covers is the row's. -/
theorem extractLsb'_eq_of_masked {w mask row : CmdWord} (h : w &&& mask = row) {s n : Nat}
    (hmask : mask.extractLsb' s n = BitVec.allOnes n) : w.extractLsb' s n = row.extractLsb' s n := by
  rw [← h, BitVec.extractLsb'_and, hmask, BitVec.and_allOnes]

theorem rdOf_eq_rd2Of_iff (w : CmdWord) : rdOf w = rd2Of w ↔ w.extractLsb' 14 3 = w.extractLsb' 11 3 :=
  BitVec.toFin_inj

section
variable {w : CmdWord}

theorem decode_of_modexpRow (h : w &&& 0xFC003FFF = 0x04000000) :
    decode w = .ok (.modexp (rs1Of w) (rs2Of w) (rs3Of w) (rdOf w)) := by
  have hop : opcodeOf w = opModexp := extractLsb'_eq_of_masked h (by decide)
  have hrd2 : rd2Of w = 0 := congrArg BitVec.toFin (extractLsb'_eq_of_masked h (by decide))
  have hz : zeroOf w = 0 := extractLsb'_eq_of_masked h (by decide)
  rw [decode_of_opModexp hop, if_pos ⟨hrd2, hz⟩]

theorem decode_of_modinvRow (h : w &&& 0xFC0E3FFF = 0x08000000) :
    decode w = .ok (.modinv (rs1Of w) (rs2Of w) (rdOf w)) := by
  have hop : opcodeOf w = opModinv := extractLsb'_eq_of_masked h (by decide)
  have hrs3 : rs3Of w = 0 := congrArg BitVec.toFin (extractLsb'_eq_of_masked h (by decide))
  have hrd2 : rd2Of w = 0 := congrArg BitVec.toFin (extractLsb'_eq_of_masked h (by decide))
  have hz : zeroOf w = 0 := extractLsb'_eq_of_masked h (by decide)
  rw [decode_of_opModinv hop, if_pos ⟨hrs3, hrd2, hz⟩]

theorem decode_of_gcdRow (h : w &&& 0xFC0E3FFF = 0x0C000000) :
    decode w = .ok (.gcd (rs1Of w) (rs2Of w) (rdOf w)) := by
  have hop : opcodeOf w = opGcd := extractLsb'_eq_of_masked h (by decide)
  have hrs3 : rs3Of w = 0 := congrArg BitVec.toFin (extractLsb'_eq_of_masked h (by decide))
  have hrd2 : rd2Of w = 0 := congrArg BitVec.toFin (extractLsb'_eq_of_masked h (by decide))
  have hz : zeroOf w = 0 := extractLsb'_eq_of_masked h (by decide)
  rw [decode_of_opGcd hop, if_pos ⟨hrs3, hrd2, hz⟩]

theorem decode_of_primetestRow (h : w &&& 0xFC000000 = 0x10000000) :
    decode w = .ok (.primetest (rs1Of w) (iterOf w) (sbitsOf w)) :=
  decode_of_opPrimetest (extractLsb'_eq_of_masked h (by decide))

theorem decode_of_factorRow (h : w &&& 0xFC7E07FF = 0x14000000) (hne : rdOf w ≠ rd2Of w) :
    decode w = .ok (.factor (rs1Of w) (rdOf w) (rd2Of w)) := by
  have hop : opcodeOf w = opFactor := extractLsb'_eq_of_masked h (by decide)
  have hrs2 : rs2Of w = 0 := congrArg BitVec.toFin (extractLsb'_eq_of_masked h (by decide))
  have hrs3 : rs3Of w = 0 := congrArg BitVec.toFin (extractLsb'_eq_of_masked h (by decide))
  have hz : zeroOf w = 0 := extractLsb'_eq_of_masked h (by decide)
  rw [decode_of_opFactor hop, if_pos ⟨hrs2, hrs3, hz⟩, if_neg hne]

end

/-- Settles O4: a word that decodes is in its row; a word in a row has the row's opcode and 0 in the unused fields. -/
theorem decodeIsTheOpcodeMap : Obligations.DecodeIsTheOpcodeMap := by
  unfold Obligations.DecodeIsTheOpcodeMap
  intro w
  refine ⟨⟨mem_row_of_decode, decode_of_modexpRow⟩, ⟨mem_row_of_decode, decode_of_modinvRow⟩,
    ⟨mem_row_of_decode, decode_of_gcdRow⟩, ⟨mem_row_of_decode, decode_of_primetestRow⟩, ⟨fun h => ?_, fun h => ?_⟩,
    fun i h => ?_⟩
  · obtain ⟨-, hwf, -⟩ := encodeOfDecode w _ h
    exact ⟨mem_row_of_decode h, mt (rdOf_eq_rd2Of_iff w).mpr (of_decide_eq_true hwf)⟩
  · exact decode_of_factorRow h.1 (mt (rdOf_eq_rd2Of_iff w).mp h.2)
  · rcases decode_ok_cases h with ⟨rfl, -⟩ | ⟨rfl, -⟩ | ⟨rfl, -⟩ | ⟨rfl, -⟩ | ⟨rfl, -⟩ <;> simp

/-! ## Illegal words (30_encoding R65, R66) -/

section
variable (w : CmdWord)

/-- `w[13:0] = 0` of R64. -/
theorem extractLsb'_0_14_eq_zero_iff : w.extractLsb' 0 14 = 0#14 ↔ rd2Of w = 0 ∧ zeroOf w = 0 := by
  rw [← BitVec.toNat_inj, ← BitVec.toNat_inj, Fin.ext_iff, rd2Of_val, zeroOf_toNat, extractLsb'_toNat_eq_div_mod]
  change _ = 0 ↔ _ = 0 ∧ _ = 0
  omega

/-- `w[22:17] = 0` of R64. -/
theorem extractLsb'_17_6_eq_zero_iff : w.extractLsb' 17 6 = 0#6 ↔ rs2Of w = 0 ∧ rs3Of w = 0 := by
  rw [← BitVec.toNat_inj, Fin.ext_iff, Fin.ext_iff, rs2Of_val, rs3Of_val, extractLsb'_toNat_eq_div_mod]
  change _ = 0 ↔ _ = 0 ∧ _ = 0
  omega

theorem rs3Of_eq_zero_iff : rs3Of w = 0 ↔ w.extractLsb' 17 3 = 0#3 := BitVec.toFin_inj

end

/-- The illegal words, in the decoder's terms. -/
theorem decode_error_iff (w : CmdWord) : (∃ e, decode w = .error e) ↔
    opcodeOf w = 0#6 ∨ 6 ≤ (opcodeOf w).toNat ∨
    (opcodeOf w = 1#6 ∧ ¬ (rd2Of w = 0 ∧ zeroOf w = 0)) ∨
    ((opcodeOf w = 2#6 ∨ opcodeOf w = 3#6) ∧ ¬ (rs3Of w = 0 ∧ rd2Of w = 0 ∧ zeroOf w = 0)) ∨
    (opcodeOf w = 5#6 ∧ (¬ (rs2Of w = 0 ∧ rs3Of w = 0 ∧ zeroOf w = 0) ∨ rdOf w = rd2Of w)) := by
  rcases opcode_cases (opcodeOf w) with hop | hop | hop | hop | hop | hop
  · rw [decode_of_opModexp hop, ite_ok_error_isError_iff, hop]
    simp [opModexp]
  · rw [decode_of_opModinv hop, ite_ok_error_isError_iff, hop]
    simp [opModinv]
  · rw [decode_of_opGcd hop, ite_ok_error_isError_iff, hop]
    simp [opGcd]
  · rw [decode_of_opPrimetest hop, hop]
    simp [opPrimetest]
  · rw [decode_of_opFactor hop, hop]
    split_ifs with hz hd
    · simp [opFactor, hd]
    · simp [opFactor, hz, hd]
    · exact iff_of_true ⟨_, rfl⟩ (.inr (.inr (.inr (.inr ⟨rfl, .inl hz⟩))))
  · rw [decode_of_unassigned hop, ← or_assoc]
    exact iff_of_true ⟨_, rfl⟩ (.inl hop)

/-- Settles O5: the illegal words are `decode_error_iff`'s, its zero fields read as R64 groups them; an Issue of one
raises IllegalCommand. -/
theorem illegalCommands : Obligations.IllegalCommands := by
  unfold Obligations.IllegalCommands
  refine ⟨fun w => ?_, fun s w rest e hp hd => ?_⟩
  · have h := decode_error_iff w
    rw [← and_assoc (a := rs2Of w = 0), ← extractLsb'_0_14_eq_zero_iff, ← extractLsb'_17_6_eq_zero_iff,
      rs3Of_eq_zero_iff, rdOf_eq_rd2Of_iff, not_and_or, not_and_or, or_assoc] at h
    exact h
  · rw [step_cons hp]
    exact hostIssue_of_decode_error hd _

/-- Settles O7: six fixed words, on which the decoder is evaluated. -/
theorem exampleWordsDecode : Obligations.ExampleWordsDecode := by
  unfold Obligations.ExampleWordsDecode
  decide

end Sys2Proof
end

section
/-! PROOF. The assembler (30_encoding R71, R72). Each operand form gives an instruction of the mnemonic's own kind, and
FACTOR's form one with two different destinations: that is all a legal word needs. -/

namespace Sys2Proof.Machine

/-- Settles O8: seven fixed lines, on which the assembler is evaluated. -/
theorem assemblerExamples : Obligations.AssemblerExamples := by
  unfold Obligations.AssemblerExamples
  decide

/-! ## What an accepted line is -/

theorem exists_of_bind_eq_ok {ε α β : Type} {x : Except ε α} {f : α → Except ε β} {b : β}
    (h : x >>= f = .ok b) : ∃ a, x = .ok a ∧ f a = .ok b := by
  cases x with
  | ok a => exact ⟨a, rfl, h⟩
  | error e => contradiction

section
variable {ops : List (List Char)} {i : Instr}

theorem asmFour_ok {mk : RegIdx → RegIdx → RegIdx → RegIdx → Instr} (h : asmFour mk ops = .ok i) :
    ∃ rs1 rs2 rs3 rd, i = mk rs1 rs2 rs3 rd := by
  unfold asmFour at h
  split at h
  · obtain ⟨rd, -, h⟩ := exists_of_bind_eq_ok h
    obtain ⟨rs1, -, h⟩ := exists_of_bind_eq_ok h
    obtain ⟨rs2, -, h⟩ := exists_of_bind_eq_ok h
    obtain ⟨rs3, -, h⟩ := exists_of_bind_eq_ok h
    exact ⟨rs1, rs2, rs3, rd, (Except.ok.inj h).symm⟩
  · contradiction

theorem asmThree_ok {mk : RegIdx → RegIdx → RegIdx → Instr} (h : asmThree mk ops = .ok i) :
    ∃ rs1 rs2 rd, i = mk rs1 rs2 rd := by
  unfold asmThree at h
  split at h
  · obtain ⟨rd, -, h⟩ := exists_of_bind_eq_ok h
    obtain ⟨rs1, -, h⟩ := exists_of_bind_eq_ok h
    obtain ⟨rs2, -, h⟩ := exists_of_bind_eq_ok h
    exact ⟨rs1, rs2, rd, (Except.ok.inj h).symm⟩
  · contradiction

theorem asmPrimetestOf_ok {n sbits : List Char} {iter : Option (List Char)} (h : asmPrimetestOf n sbits iter = .ok i) :
    ∃ rs1 it sb, i = .primetest rs1 it sb := by
  unfold asmPrimetestOf at h
  obtain ⟨rs1, -, h⟩ := exists_of_bind_eq_ok h
  obtain ⟨v, -, h⟩ := exists_of_bind_eq_ok h
  obtain ⟨sb, -, h⟩ := exists_of_bind_eq_ok h
  cases iter with
  | none =>
    obtain ⟨it, -, h⟩ := exists_of_bind_eq_ok h
    exact ⟨rs1, it, sb, (Except.ok.inj h).symm⟩
  | some l =>
    obtain ⟨u, -, h⟩ := exists_of_bind_eq_ok h
    obtain ⟨it, -, h⟩ := exists_of_bind_eq_ok h
    exact ⟨rs1, it, sb, (Except.ok.inj h).symm⟩

theorem asmPrimetest_ok (h : asmPrimetest ops = .ok i) : ∃ rs1 it sb, i = .primetest rs1 it sb := by
  unfold asmPrimetest at h
  split at h
  · exact asmPrimetestOf_ok h
  · exact asmPrimetestOf_ok h
  · contradiction

theorem asmFactor_ok (h : asmFactor ops = .ok i) : ∃ rs1 rd rd2, i = .factor rs1 rd rd2 ∧ rd ≠ rd2 := by
  unfold asmFactor at h
  split at h
  · obtain ⟨rd, -, h⟩ := exists_of_bind_eq_ok h
    obtain ⟨rd2, -, h⟩ := exists_of_bind_eq_ok h
    obtain ⟨rs1, -, h⟩ := exists_of_bind_eq_ok h
    split_ifs at h with hd
    exact ⟨rs1, rd, rd2, (Except.ok.inj h).symm, hd⟩
  · contradiction

end

theorem asmCommand_wellFormed {l : List Char} {i : Instr} (h : asmCommand l = .ok i) : i.wellFormed = true := by
  unfold asmCommand at h
  dsimp only at h
  split_ifs at h
  · obtain ⟨_, _, _, _, rfl⟩ := asmFour_ok h; rfl
  · obtain ⟨_, _, _, rfl⟩ := asmThree_ok h; rfl
  · obtain ⟨_, _, _, rfl⟩ := asmThree_ok h; rfl
  · obtain ⟨_, _, _, rfl⟩ := asmPrimetest_ok h; rfl
  · obtain ⟨_, _, _, rfl, hne⟩ := asmFactor_ok h; exact decide_eq_true hne
  · obtain ⟨_, _, _, _, rfl⟩ := asmFour_ok h; rfl
  · obtain ⟨_, _, _, _, rfl⟩ := asmFour_ok h; rfl

/-- Settles O9: an accepted line is well formed, and the word of a well-formed instruction decodes to it. -/
theorem assembledWordsAreLegal : Obligations.AssembledWordsAreLegal := by
  unfold Obligations.AssembledWordsAreLegal
  intro line i h
  have hwf : i.wellFormed = true := asmCommand_wellFormed h
  exact ⟨hwf, by rw [assembleWord, h]; rfl, decodeOfEncode i hwf⟩

/-! ## ENCRYPT and DECRYPT (30_encoding R72, 40_modexp R83) -/

/-- Settles O20: both names have MODEXP's arm in `encode` and its effect in `exec`. -/
theorem cipherNamesAreModexp : Obligations.CipherNamesAreModexp := by
  unfold Obligations.CipherNamesAreModexp
  intro rs1 rs2 rs3 rd i hi
  simp only [List.mem_cons, List.not_mem_nil, or_false] at hi
  obtain rfl | rfl := hi
  · exact ⟨rfl, fun _ => rfl⟩
  · exact ⟨rfl, fun _ => rfl⟩

end Sys2Proof.Machine
end

section
/-! PROOF. MODEXP and its two names (40_modexp). Each name's effect is `modexpCmd`, and for a nonzero exponent the value
written is the plain power, so the special case of R81 shows at exponent 0 only. The RSA round trip of R84 (3) is then
`v^(e d) ≡ v` modulo each prime of the key. -/

namespace Sys2Proof.Machine

/-! ## The value MODEXP writes (40_modexp R81, R84) -/

/-- For a nonzero exponent the special case `b mod m = 0` of R81 agrees with the power. -/
theorem modexpVal_of_exponent_ne_zero (b : Nat) {e m : Nat} (he : e ≠ 0) (hm : m ≠ 0) :
    modexpVal b e m = b ^ e % m := by
  rw [modexpVal_eq b e m hm]
  split
  · next hb => exact (Nat.mod_eq_zero_of_dvd (dvd_pow (Nat.dvd_of_mod_eq_zero hb) he)).symm
  · rfl

/-- Two exponentiations with the same modulus are one by the product of the exponents. -/
theorem modexpVal_modexpVal (b : Nat) {e d m : Nat} (he : e ≠ 0) (hd : d ≠ 0) (hm : m ≠ 0) :
    modexpVal (modexpVal b e m) d m = b ^ (e * d) % m := by
  rw [modexpVal_of_exponent_ne_zero b he hm, modexpVal_of_exponent_ne_zero _ hd hm, ← Nat.pow_mod, ← pow_mul]

/-- Settles O21: each law is read off the value of R81. -/
theorem modexpLaws : Obligations.ModexpLaws := by
  unfold Obligations.ModexpLaws
  refine ⟨fun b m hm hb => ?_, fun b e => ?_, fun b e m hm => ?_⟩
  · rw [modexpVal_eq b 0 m (by omega), if_neg hb, pow_zero, Nat.mod_eq_of_lt hm]
  · rw [modexpVal_eq b e 1 one_ne_zero, if_pos (Nat.mod_one b)]
  · rw [modexpVal_eq b e m (by omega), modexpVal_eq (b % m) e m (by omega), Nat.mod_mod, ← Nat.pow_mod]

/-! ## The command and its names (40_modexp R81, R83) -/

/-- MODEXP, ENCRYPT and DECRYPT all answer MODEXP's effect. -/
theorem exec_modexpName {rs1 rs2 rs3 rd : RegIdx} {i : Instr}
    (hi : i ∈ [Instr.modexp rs1 rs2 rs3 rd, .encrypt rs1 rs2 rs3 rd, .decrypt rs1 rs2 rs3 rd]) (s : State) :
    exec i s = .next (modexpCmd rs1 rs2 rs3 rd s) := by
  simp only [List.mem_cons, List.not_mem_nil, or_false] at hi
  obtain rfl | rfl | rfl := hi <;> rfl

/-- Settles O19: the two ways the command can end, with the value written as R81 says it. -/
theorem modexpResult : Obligations.ModexpResult := by
  unfold Obligations.ModexpResult
  intro rs1 rs2 rs3 rd s i hi
  rw [exec_modexpName hi s]
  obtain ⟨hm, hcmd⟩ | ⟨hm, hcmd⟩ := modexpCmd_cases rs1 rs2 rs3 rd s
  · exact ⟨fun hne => absurd hm hne, fun _ => by rw [hcmd]⟩
  · exact ⟨fun _ => by rw [hcmd, modexpVal_eq _ _ _ hm], fun h0 => absurd h0 hm⟩

/-- With a nonzero modulus the command writes its value and completes. -/
theorem modexpCmd_of_modulus_ne_zero {rs1 rs2 rs3 rd : RegIdx} {s : State} (hm : s.getReg rs3 ≠ 0) :
    modexpCmd rs1 rs2 rs3 rd s =
      (s.setReg rd (modexpVal (s.getReg rs1) (s.getReg rs2) (s.getReg rs3))).complete := by
  obtain ⟨h0, -⟩ | ⟨-, hcmd⟩ := modexpCmd_cases rs1 rs2 rs3 rd s
  · exact absurd h0 hm
  · exact hcmd

/-- Every register after a command with a nonzero modulus. -/
theorem getReg_modexpCmd {rs1 rs2 rs3 rd : RegIdx} {s : State} (hm : s.getReg rs3 ≠ 0) (j : RegIdx) :
    (modexpCmd rs1 rs2 rs3 rd s).getReg j =
      if j = rd then modexpVal (s.getReg rs1) (s.getReg rs2) (s.getReg rs3) else s.getReg j := by
  rw [modexpCmd_of_modulus_ne_zero hm, State.getReg_complete, State.getReg_setReg]

/-- Two commands in a row, the second on the first one's result: the second exponentiation is of the first one's value,
as long as the first destination is not an operand the second command reads again. -/
theorem modexpCmd_modexpCmd {rv ra rb rn rc rm : RegIdx} {s : State} (hn : s.getReg rn ≠ 0) (hb : rc ≠ rb)
    (hc : rc ≠ rn) :
    (modexpCmd rc rb rn rm (modexpCmd rv ra rn rc s)).getReg rm =
        modexpVal (modexpVal (s.getReg rv) (s.getReg ra) (s.getReg rn)) (s.getReg rb) (s.getReg rn) ∧
      (modexpCmd rc rb rn rm (modexpCmd rv ra rn rc s)).err = 0 := by
  have hread := getReg_modexpCmd (rs1 := rv) (rs2 := ra) (rd := rc) hn
  have hn' : (modexpCmd rv ra rn rc s).getReg rn ≠ 0 := by rwa [hread, if_neg hc.symm]
  constructor
  · rw [getReg_modexpCmd hn', if_pos rfl, hread rc, hread rb, hread rn, if_pos rfl, if_neg hb.symm, if_neg hc.symm]
  · rw [modexpCmd_of_modulus_ne_zero hn', State.complete]

/-! ## The RSA identity (40_modexp R84 (3), 44_host_sequences R125) -/

/-- Raising to a power that is 1 modulo `lcm(p - 1, q - 1)` changes nothing modulo `p q`: by Fermat's theorem for each
prime, where a base that the prime divides is 0 on both sides, so no coprimality is asked of `v`. -/
theorem pow_modEq_self_of_totientLcm {p q k : Nat} (hp : p.Prime) (hq : q.Prime) (hpq : p ≠ q) (hk : 0 < k)
    (hdvd : totientLcm (p - 1) (q - 1) ∣ k - 1) (v : Nat) : v ^ k ≡ v [MOD p * q] := by
  have modPrime : ∀ {r : Nat}, r.Prime → r - 1 ∣ k - 1 → v ^ k ≡ v [MOD r] := by
    intro r hr hr1
    rw [← Int.natCast_modEq_iff]
    simpa using Int.ModEq.pow_eq_pow hr hr1 hk one_pos (v : Int)
  rw [← Nat.modEq_and_modEq_iff_modEq_mul ((Nat.coprime_primes hp hq).mpr hpq)]
  exact ⟨modPrime hp ((Nat.dvd_lcm_left _ _).trans hdvd), modPrime hq ((Nat.dvd_lcm_right _ _).trans hdvd)⟩

/-- A valid key's modulus is not 0. -/
theorem KeyMaterial.Valid.modulus_ne_zero {k : KeyMaterial} (h : k.Valid) : k.n ≠ 0 := by
  obtain ⟨hp, hq, -, -, -, hn, -⟩ := h
  exact hn ▸ mul_ne_zero hp.ne_zero hq.ne_zero

/-- The product of a valid key's exponents is not 0, since it is 1 modulo something. -/
theorem KeyMaterial.Valid.exponents_ne_zero {k : KeyMaterial} (h : k.Valid) : k.e * k.d ≠ 0 := by
  obtain ⟨-, -, -, -, -, -, -, -, -, hed⟩ := h
  intro h0
  simp [h0] at hed

/-- A message below a valid key's modulus is fixed by both exponents together. -/
theorem KeyMaterial.Valid.pow_mod_eq_self {k : KeyMaterial} (h : k.Valid) {v : Nat} (hv : v < k.n) :
    v ^ (k.e * k.d) % k.n = v := by
  have hpos : 0 < k.e * k.d := Nat.pos_of_ne_zero h.exponents_ne_zero
  obtain ⟨hp, hq, hpq, -, -, hn, -, -, -, hed⟩ := h
  have hdvd : totientLcm (k.p - 1) (k.q - 1) ∣ k.e * k.d - 1 := by
    have hsub := Nat.dvd_sub_mod (n := totientLcm (k.p - 1) (k.q - 1)) (k.e * k.d)
    rwa [hed] at hsub
  have hpow : v ^ (k.e * k.d) ≡ v [MOD k.n] := hn ▸ pow_modEq_self_of_totientLcm hp hq hpq hpos hdvd v
  exact Nat.mod_eq_of_modEq hpow hv

/-- Settles O22: each direction is two commands, whose exponents multiply to the same `e d`. -/
theorem rsaRoundTrip : Obligations.RsaRoundTrip := by
  unfold Obligations.RsaRoundTrip
  intro k s rv re rd rn rc rm hk hv he hd hn hce hcd hcn
  have hn0 : s.getReg rn ≠ 0 := hn.trans_ne hk.modulus_ne_zero
  obtain ⟨he0, hd0⟩ := mul_ne_zero_iff.mp hk.exponents_ne_zero
  refine ⟨⟨_, _, rfl, rfl, ?_⟩, ⟨_, _, rfl, rfl, ?_⟩⟩
  · obtain ⟨hval, herr⟩ := modexpCmd_modexpCmd (rv := rv) (ra := re) (rm := rm) hn0 hcd hcn
    refine ⟨hval.trans ?_, herr⟩
    rw [he, hd, hn, modexpVal_modexpVal _ he0 hd0 hk.modulus_ne_zero, hk.pow_mod_eq_self hv]
  · obtain ⟨hval, herr⟩ := modexpCmd_modexpCmd (rv := rv) (ra := rd) (rm := rm) hn0 hce hcn
    refine ⟨hval.trans ?_, herr⟩
    rw [he, hd, hn, modexpVal_modexpVal _ hd0 he0 hk.modulus_ne_zero, mul_comm, hk.pow_mod_eq_self hv]

end Sys2Proof.Machine
end

section
/-! PROOF. MODINV and GCD (41_modinv_gcd). Each command's ends are `modinvCmd_cases` and `gcdCmd_eq`; what is added is
that the inverse is the only one, that the gcd is the largest common divisor, and that R95's loop reaches it. -/

namespace Sys2Proof.Machine

/-! ## The inverse (41_modinv_gcd R91) -/

/-- Modulo `m`, multiplication by a value coprime to `m` identifies no two values below `m`. -/
theorem eq_of_mul_mod_eq_of_coprime {a m u v : Nat} (hg : Nat.gcd a m = 1) (hu : u < m) (hv : v < m)
    (h : a * u % m = a * v % m) : u = v :=
  Nat.ModEq.eq_of_lt_of_lt (Nat.ModEq.cancel_left_of_coprime (Nat.gcd_comm a m ▸ hg) h) hu hv

/-- Settles O23: the three ways the command can end; a second inverse would have the same product with `a`. -/
theorem modinvResult : Obligations.ModinvResult := by
  unfold Obligations.ModinvResult
  intro rs1 rs2 rd s
  have hexec : exec (.modinv rs1 rs2 rd) s = .next (modinvCmd Config.chip rs1 rs2 rd s) := exec_eq _ s
  rw [hexec]
  rcases modinvCmd_cases Config.chip rs1 rs2 rd s with ⟨h0, e⟩ | ⟨hm, hg, e⟩ | ⟨hm, hg, e⟩
  · exact ⟨fun _ => by rw [e], fun hm => absurd h0 hm, fun hm => absurd h0 hm⟩
  · refine ⟨fun h0 => absurd h0 hm, fun _ _ => ?_, fun _ hne => absurd hg hne⟩
    have hlt := inverseVal_lt (s.getReg rs1) (s.getReg rs2) hm
    have hmul := inverseVal_mul (s.getReg rs1) (s.getReg rs2) hm
    rw [hg] at hmul
    exact ⟨_, hlt, hmul, fun u hu h => eq_of_mul_mod_eq_of_coprime hg hu hlt (h.trans hmul.symm), by rw [e]⟩
  · exact ⟨fun h0 => absurd h0 hm, fun _ hg1 => absurd hg1 hg,
      fun _ _ => ⟨_, Nat.mod_lt _ (Nat.pos_of_ne_zero hm), by rw [e]⟩⟩

/-! ## The greatest common divisor (41_modinv_gcd R93) -/

/-- Every common divisor is at most the gcd, unless both values are 0. -/
theorem le_gcd_of_dvd_of_dvd {a b d : Nat} (h : ¬(a = 0 ∧ b = 0)) (ha : d ∣ a) (hb : d ∣ b) : d ≤ Nat.gcd a b :=
  Nat.le_of_dvd (Nat.pos_of_ne_zero (mt Nat.gcd_eq_zero_iff.mp h)) (Nat.dvd_gcd ha hb)

/-- Settles O24: the command writes the gcd, which is 0 for two zeros and the largest common divisor otherwise. -/
theorem gcdResult : Obligations.GcdResult := by
  unfold Obligations.GcdResult
  intro rs1 rs2 rd s
  refine ⟨Nat.gcd (s.getReg rs1) (s.getReg rs2), by rw [exec_eq, effect, gcdCmd_eq], ?_⟩
  by_cases h : s.getReg rs1 = 0 ∧ s.getReg rs2 = 0
  · exact .inl ⟨h.1, h.2, Nat.gcd_eq_zero_iff.mpr h⟩
  · exact .inr ⟨h, Nat.gcd_dvd_left _ _, Nat.gcd_dvd_right _ _, fun _ => le_gcd_of_dvd_of_dvd h⟩

/-! ## The iterative method (41_modinv_gcd R95) -/

/-- As many turns as the second operand are enough: it gets smaller at every turn. -/
theorem gcdLoop_eq_gcd : ∀ {turns a b : Nat}, b ≤ turns → gcdLoop turns a b = Nat.gcd a b := by
  intro turns
  induction turns with
  | zero =>
    intro a b h
    rw [Nat.le_zero.mp h, gcdLoop, Nat.gcd_zero_right]
  | succ k ih =>
    intro a b h
    rw [gcdLoop]
    split
    · next hb => rw [hb, Nat.gcd_zero_right]
    · next hb =>
      have hlt : a % b < b := Nat.mod_lt a (Nat.pos_of_ne_zero hb)
      rw [ih (by omega), Nat.gcd_comm, ← Nat.gcd_rec, Nat.gcd_comm]

/-- Settles O25: the loop returns the gcd for either order of the operands, and the gcd does not see the order. -/
theorem gcdMethodReturnsGcd : Obligations.GcdMethodReturnsGcd := by
  unfold Obligations.GcdMethodReturnsGcd
  refine fun a b => ⟨?_, fun turns => gcdLoop_eq_gcd⟩
  rw [gcdMethod]
  split
  · rw [gcdLoop_eq_gcd le_rfl, Nat.gcd_comm]
  · exact gcdLoop_eq_gcd le_rfl

end Sys2Proof.Machine
end

section
/-! PROOF. PRIMETEST (42_primetest). The command's ends are `primetestCmd_cases`. What is added is when a witness passes
the Fermat check, and what follows for the command: if every witness that can be drawn passes, then it says prime, or
the entropy port failed. -/

namespace Sys2Proof.Machine

/-! ## The witness and its check (42_primetest R101, R102) -/

theorem witness_zero (n : Nat) : witness n 0 = 1 := by
  rw [witness, Nat.zero_mod]

theorem witness_le_succ (n r : Nat) : witness n r ≤ r + 1 :=
  Nat.succ_le_succ (Nat.mod_le r (n - 1))

/-- Settles O30: the witness is at most `n - 1` by its modulus, and at most `r + 1` by its draw. -/
theorem witnessRange : Obligations.WitnessRange := by
  unfold Obligations.WitnessRange
  intro n k r hn hr
  obtain ⟨hpos, hlt⟩ := witness_bounds n r hn
  have hdraw : witness n r ≤ 2 ^ k := (witness_le_succ n r).trans hr
  exact ⟨rfl, hpos, le_min hdraw (Nat.le_sub_one_of_lt hlt)⟩

/-- On a witness the check is the plain power, as the special case of MODEXP never applies to it. -/
theorem fermatPasses_witness_iff {n : Nat} (hn : 2 ≤ n) (r : Nat) :
    fermatPasses n (witness n r) = true ↔ (r % (n - 1) + 1) ^ (n - 1) % n = 1 :=
  fermatPasses_iff n (witness n r) hn (witness_bounds n r hn)

theorem trialsPass_iff {n : Nat} (hn : 2 ≤ n) (P : Params) (sbits q k : Nat) :
    trialsPass P n sbits q k ↔
      ∀ j < k, ∃ r, randBits P sbits (q + j) = some r ∧ (r % (n - 1) + 1) ^ (n - 1) % n = 1 := by
  simp only [trialsPass, fermatPasses_witness_iff hn]

/-- The witness 1, which is that of the draw 0, always passes. -/
theorem fermatPasses_witness_zero {n : Nat} (hn : 2 ≤ n) : fermatPasses n (witness n 0) = true := by
  rw [witness_zero, fermatPasses_iff n 1 hn ⟨le_rfl, hn⟩, one_pow, Nat.mod_eq_of_lt hn]

/-- Fermat's little theorem: every witness passes for a prime. -/
theorem fermatPasses_witness_of_prime {p : Nat} (hp : p.Prime) (r : Nat) : fermatPasses p (witness p r) = true := by
  obtain ⟨hpos, hlt⟩ := witness_bounds p r hp.two_le
  have hcoprime : Nat.Coprime (witness p r) p := (Nat.coprime_of_lt_prime (by omega) hlt hp).symm
  rw [fermatPasses_iff p _ hp.two_le ⟨hpos, hlt⟩]
  exact Nat.mod_eq_of_modEq (Nat.ModEq.pow_card_sub_one_eq_one hp hcoprime) hp.one_lt

/-! ## The command in all its cases (42_primetest R101) -/

/-- Settles O26: the ways the command can end, with the check of each trial as R101 writes it. -/
theorem primetestResult : Obligations.PrimetestResult := by
  unfold Obligations.PrimetestResult
  intro rs1 iter sbits s
  dsimp only
  rw [exec_eq, effect]
  rcases primetestCmd_cases Config.chip rs1 iter sbits s with
    ⟨h0, e⟩ | ⟨h1, e⟩ | ⟨hn, hpass, e⟩ | ⟨hn, j, hj, hpass, ⟨r, hr, hfail, e⟩ | ⟨hr, e⟩⟩
  · exact ⟨fun _ => by rw [e], fun h => by omega, fun h => by omega⟩
  · exact ⟨fun h => by omega, fun _ => by rw [e], fun h => by omega⟩
  · rw [trialsPass_iff hn] at hpass
    exact ⟨fun h => by omega, fun h => by omega, fun _ => .inl ⟨hpass, by rw [e]⟩⟩
  · rw [trialsPass_iff hn] at hpass
    rw [Bool.eq_false_iff, ne_eq, fermatPasses_witness_iff hn] at hfail
    exact ⟨fun h => by omega, fun h => by omega, fun _ => .inr ⟨j, hj, hpass, .inl ⟨r, hr, hfail, by rw [e]⟩⟩⟩
  · rw [trialsPass_iff hn] at hpass
    exact ⟨fun h => by omega, fun h => by omega, fun _ => .inr ⟨j, hj, hpass, .inr ⟨hr, by rw [e]⟩⟩⟩

/-! ## When no witness fails (42_primetest R103, R104) -/

/-- Every `bits`-bit draw that the entropy port answers gives a witness that passes the check for `n`. -/
def drawsPass (P : Params) (n bits : Nat) : Prop :=
  ∀ q r, randBits P bits q = some r → fermatPasses n (witness n r) = true

theorem drawsPass_of_prime (P : Params) {p : Nat} (hp : p.Prime) (bits : Nat) : drawsPass P p bits :=
  fun _ r _ => fermatPasses_witness_of_prime hp r

/-- A draw of no bits is 0. -/
theorem drawsPass_zero_bits (P : Params) {n : Nat} (hn : 2 ≤ n) : drawsPass P n 0 := by
  intro q r hr
  obtain rfl : r = 0 := Nat.lt_one_iff.mp (randBits_lt hr)
  exact fermatPasses_witness_zero hn

section

variable {P : Params} {rs1 : RegIdx} {iter : BitVec 8} {sbits : BitVec 15} {s : State}

/-- If no witness fails, then all trials pass, or the first one that does not is a request that got no bits. -/
theorem primetestCmd_of_drawsPass (hn : 2 ≤ s.getReg rs1) (hdraws : drawsPass P (s.getReg rs1) sbits.toNat) :
    primetestCmd P rs1 iter sbits s =
        { s with prime := true, err := 0, entropyReqs := s.entropyReqs + iter.toNat } ∨
      ∃ j < iter.toNat, randBits P sbits.toNat (s.entropyReqs + j) = none ∧
        primetestCmd P rs1 iter sbits s = { s with err := 1, entropyReqs := s.entropyReqs + j + 1 } := by
  rcases primetestCmd_cases P rs1 iter sbits s with
    ⟨h0, -⟩ | ⟨h1, -⟩ | ⟨-, -, e⟩ | ⟨-, j, hj, -, ⟨r, hr, hfail, -⟩ | ⟨hr, e⟩⟩
  · omega
  · omega
  · exact .inl e
  · exact absurd (hdraws _ r hr) (Bool.eq_false_iff.mp hfail)
  · exact .inr ⟨j, hj, hr, e⟩

/-- If no witness fails, then the command says prime, or fails for want of entropy and leaves PRIME. -/
theorem primetestCmd_verdict_of_drawsPass (hn : 2 ≤ s.getReg rs1)
    (hdraws : drawsPass P (s.getReg rs1) sbits.toNat) :
    ((primetestCmd P rs1 iter sbits s).err = 0 ∧ (primetestCmd P rs1 iter sbits s).prime = true) ∨
      ((primetestCmd P rs1 iter sbits s).err = 1 ∧ (primetestCmd P rs1 iter sbits s).prime = s.prime) := by
  rcases primetestCmd_of_drawsPass (iter := iter) hn hdraws with e | ⟨j, -, -, e⟩
  · rw [e]; exact .inl ⟨rfl, rfl⟩
  · rw [e]; exact .inr ⟨rfl, rfl⟩

/-- With no trials nothing is drawn, so nothing fails (42_primetest R104 (e)). -/
theorem primetestCmd_zero_iter (hn : 2 ≤ s.getReg rs1) :
    primetestCmd P rs1 0 sbits s = { s with prime := true, err := 0 } := by
  rcases primetestCmd_cases P rs1 0 sbits s with ⟨h0, -⟩ | ⟨h1, -⟩ | ⟨-, -, e⟩ | ⟨-, j, hj, -⟩
  · omega
  · omega
  · exact e
  · exact absurd hj (Nat.not_lt_zero j)

end

/-- Settles O27: no witness fails for a prime, so the command does not end with ERR 0 and PRIME 0. -/
theorem primetestNeverRejectsPrime : Obligations.PrimetestNeverRejectsPrime := by
  unfold Obligations.PrimetestNeverRejectsPrime
  intro rs1 iter sbits s
  have verdict (P : Params) (hp : (s.getReg rs1).Prime) :=
    primetestCmd_verdict_of_drawsPass (iter := iter) hp.two_le (drawsPass_of_prime P hp sbits.toNat)
  refine ⟨fun hp => ⟨_, exec_eq _ s, verdict Config.chip hp⟩, ?_⟩
  rintro P t rfl - herr hprime hp
  rcases verdict P hp with ⟨-, h⟩ | ⟨h, -⟩
  · exact Bool.false_ne_true (hprime.symm.trans h)
  · exact absurd (herr.symm.trans h) (by decide)

/-- Settles O28: a port that always answers 0 gives the witness 1 only, and no request fails. -/
theorem everyNumberCanPass : Obligations.EveryNumberCanPass := by
  unfold Obligations.EveryNumberCanPass
  intro rs1 iter sbits s hn
  have hanswer : ∀ q, randBits (alwaysAnswers (some 0)) sbits.toNat q = some 0 :=
    randBits_alwaysAnswers (Nat.two_pow_pos _)
  have hdraws : drawsPass (alwaysAnswers (some 0)) (s.getReg rs1) sbits.toNat := by
    intro q r hr
    obtain rfl : 0 = r := Option.some.inj ((hanswer q).symm.trans hr)
    exact fermatPasses_witness_zero hn
  refine ⟨alwaysAnswers (some 0), ?_⟩
  rcases primetestCmd_of_drawsPass (iter := iter) hn hdraws with e | ⟨j, -, hnone, -⟩
  · exact e
  · exact absurd ((hanswer _).symm.trans hnone) (Option.some_ne_none 0)

/-- Settles O29: no trial is begun; or no witness fails, as 2 and 3 are prime and a draw of no bits is 0. -/
theorem primetestCornerVerdicts : Obligations.PrimetestCornerVerdicts := by
  unfold Obligations.PrimetestCornerVerdicts
  intro rs1 iter sbits s hn
  constructor
  · rintro rfl
    rw [exec_eq, effect, primetestCmd_zero_iter hn]
  · intro h
    have hdraws : drawsPass Config.chip (s.getReg rs1) sbits.toNat := by
      rcases h with h2 | h3 | rfl
      · exact drawsPass_of_prime _ (h2 ▸ Nat.prime_two) _
      · exact drawsPass_of_prime _ (h3 ▸ Nat.prime_three) _
      · exact drawsPass_zero_bits _ hn
    exact ⟨_, exec_eq _ s, primetestCmd_verdict_of_drawsPass hn hdraws⟩

end Sys2Proof.Machine
end

section
/-! PROOF. FACTOR (43_factor). A walk is read off the sequence of its gcds, and it ends because Floyd's two pointers
meet within `n` rounds; so an attempt without a factor is a collapsed one. The command's ends are `factorCmd_cases`. -/

namespace Sys2Proof.Machine

/-! ## Floyd's two pointers meet (43_factor R115) -/

/-- From its first step on, a sequence that takes values below `n` repeats within `n + 1` steps. -/
theorem exists_iterate_repeat {n : Nat} {f : Nat → Nat} (hf : ∀ t, f t < n) (x : Nat) :
    ∃ a b, 1 ≤ a ∧ a < b ∧ b ≤ n + 1 ∧ f^[a] x = f^[b] x := by
  have hmaps : ∀ i ∈ Finset.Icc 1 (n + 1), f^[i] x ∈ Finset.range n := by
    intro i hi
    obtain ⟨k, rfl⟩ := Nat.exists_eq_add_of_le' (Finset.mem_Icc.mp hi).1
    rw [Function.iterate_succ_apply', Finset.mem_range]
    exact hf _
  obtain ⟨i, hi, j, hj, hne, heq⟩ :=
    Finset.exists_ne_map_eq_of_card_lt_of_maps_to (by simp) hmaps
  rw [Finset.mem_Icc] at hi hj
  rcases Nat.lt_or_gt_of_ne hne with h | h
  · exact ⟨i, j, hi.1, h, hj.2, heq⟩
  · exact ⟨j, i, hj.1, h, hi.2, heq.symm⟩

/-- The pointers meet at a round `i` that is in the cycle and is a multiple of its length. -/
theorem exists_floyd_meeting {n : Nat} {f : Nat → Nat} (hf : ∀ t, f t < n) (x : Nat) :
    ∃ i, 1 ≤ i ∧ i ≤ n ∧ f^[i] x = f^[2 * i] x := by
  obtain ⟨a, b, ha, hab, hb, heq⟩ := exists_iterate_repeat hf x
  have hlen : Function.IsPeriodicPt f (b - a) (f^[a] x) := by
    rw [Function.IsPeriodicPt, Function.IsFixedPt, ← Function.iterate_add_apply, Nat.sub_add_cancel hab.le, heq]
  obtain ⟨i, hi⟩ : ∃ i, i = b - 1 - (b - 1) % (b - a) := ⟨_, rfl⟩
  have hdvd : b - a ∣ i := hi ▸ Nat.dvd_sub_mod _
  have hmod : (b - 1) % (b - a) < b - a := Nat.mod_lt _ (by omega)
  have hper : Function.IsPeriodicPt f i (f^[i] x) := by
    have h := (hlen.apply_iterate (i - a)).trans_dvd hdvd
    rwa [← Function.iterate_add_apply, Nat.sub_add_cancel (by omega)] at h
  exact ⟨i, by omega, by omega, by rw [two_mul, Function.iterate_add_apply]; exact hper.symm⟩

/-! ## The walk and its gcds (43_factor R112, R113) -/

/-- `d` of round `i` of the walk from the seed `x` (43_factor R112). -/
def walkGcd (n c x i : Nat) : Nat := gcdVal (absDiff ((rhoNext c n)^[i] x) ((rhoNext c n)^[2 * i] x)) n

theorem absDiff_eq_natAbs (a b : Nat) : absDiff a b = Int.natAbs ((a : Int) - b) := by
  unfold absDiff
  split <;> omega

/-- One round, from the pointers as they are after `i` rounds. -/
theorem rhoWalk_succ_iterate (n c x rounds i : Nat) :
    rhoWalk n c (rounds + 1) ((rhoNext c n)^[i] x) ((rhoNext c n)^[2 * i] x) =
      if 1 < walkGcd n c x (i + 1) ∧ walkGcd n c x (i + 1) < n then .found (walkGcd n c x (i + 1))
      else if walkGcd n c x (i + 1) = n then .collapsed
      else rhoWalk n c rounds ((rhoNext c n)^[i + 1] x) ((rhoNext c n)^[2 * (i + 1)] x) := by
  simp only [walkGcd, Nat.mul_succ, Function.iterate_succ_apply']
  rfl

section

variable {n c x : Nat}

/-- `d` divides `n`, so it is 1, a nontrivial factor, or `n`. -/
theorem walkGcd_cases (hn : 1 ≤ n) (i : Nat) :
    walkGcd n c x i = 1 ∨ (1 < walkGcd n c x i ∧ walkGcd n c x i < n) ∨ walkGcd n c x i = n := by
  have hpos : 0 < walkGcd n c x i := Nat.gcd_pos_of_pos_right _ hn
  have hle : walkGcd n c x i ≤ n := Nat.gcd_le_right _ hn
  omega

/-- After `i` rounds, a walk ends at the first round `m` whose gcd is a nontrivial factor or `n`; it is unfinished if
no round it is given has the gcd `n`. -/
theorem rhoWalk_cases (hn : 1 ≤ n) : ∀ rounds i,
    (∃ m, i < m ∧ m ≤ i + rounds ∧ (∀ j, i < j → j < m → walkGcd n c x j = 1) ∧
      ((1 < walkGcd n c x m ∧ walkGcd n c x m < n ∧
          rhoWalk n c rounds ((rhoNext c n)^[i] x) ((rhoNext c n)^[2 * i] x) = .found (walkGcd n c x m)) ∨
        (walkGcd n c x m = n ∧
          rhoWalk n c rounds ((rhoNext c n)^[i] x) ((rhoNext c n)^[2 * i] x) = .collapsed))) ∨
    ((∀ j, i < j → j ≤ i + rounds → walkGcd n c x j ≠ n) ∧
      rhoWalk n c rounds ((rhoNext c n)^[i] x) ((rhoNext c n)^[2 * i] x) = .unfinished) := by
  intro rounds
  induction rounds with
  | zero => exact fun i => .inr ⟨fun j h h' => by omega, rfl⟩
  | succ k ih =>
    intro i
    rw [rhoWalk_succ_iterate]
    split
    · next hd => exact .inl ⟨i + 1, by omega, by omega, fun j h h' => by omega, .inl ⟨hd.1, hd.2, rfl⟩⟩
    · next hd =>
      split
      · next hd' => exact .inl ⟨i + 1, by omega, by omega, fun j h h' => by omega, .inr ⟨hd', rfl⟩⟩
      · next hd' =>
        have hone : walkGcd n c x (i + 1) = 1 :=
          (walkGcd_cases hn (i + 1)).resolve_right (not_or.mpr ⟨hd, hd'⟩)
        rcases ih (i + 1) with ⟨m, hm, hmk, hfirst, hend⟩ | ⟨hnone, hend⟩
        · refine .inl ⟨m, by omega, by omega, fun j hj hjm => ?_, hend⟩
          rcases Nat.eq_or_lt_of_le (Nat.succ_le_of_lt hj) with rfl | h
          · exact hone
          · exact hfirst j h hjm
        · refine .inr ⟨fun j hj hjk => ?_, hend⟩
          rcases Nat.eq_or_lt_of_le (Nat.succ_le_of_lt hj) with rfl | h
          · exact hd'
          · exact hnone j h (by omega)

/-- Where the pointers meet the gcd is `n` (43_factor R112). -/
theorem exists_walkGcd_eq (hn : 1 ≤ n) : ∃ i, 1 ≤ i ∧ i ≤ n ∧ walkGcd n c x i = n := by
  obtain ⟨i, hi, hin, heq⟩ := exists_floyd_meeting (f := rhoNext c n) (fun t => Nat.mod_lt _ hn) x
  exact ⟨i, hi, hin, by rw [walkGcd, ← heq, absDiff, if_neg (lt_irrefl _), Nat.sub_self, gcdVal, Nat.gcd_zero_left]⟩

/-- How an attempt's walk of `n` rounds ends: at its first gcd that is a nontrivial factor or `n`. -/
theorem rhoWalk_n_cases (hn : 1 ≤ n) :
    ∃ m, 1 ≤ m ∧ m ≤ n ∧ (∀ j, 1 ≤ j → j < m → walkGcd n c x j = 1) ∧
      ((1 < walkGcd n c x m ∧ walkGcd n c x m < n ∧ rhoWalk n c n x x = .found (walkGcd n c x m)) ∨
        (walkGcd n c x m = n ∧ rhoWalk n c n x x = .collapsed)) := by
  rcases rhoWalk_cases (c := c) (x := x) hn n 0 with ⟨m, hm, hmn, hfirst, hend⟩ | ⟨hnone, -⟩
  · exact ⟨m, hm, by omega, hfirst, hend⟩
  · obtain ⟨i, hi, hin, heq⟩ := exists_walkGcd_eq (c := c) (x := x) hn
    exact absurd heq (hnone i hi (by omega))

theorem rhoWalk_n_ne_unfinished (hn : 1 ≤ n) : rhoWalk n c n x x ≠ .unfinished := by
  obtain ⟨m, -, -, -, ⟨-, -, e⟩ | ⟨-, e⟩⟩ := rhoWalk_n_cases (c := c) (x := x) hn <;> simp [e]

end

/-- Rounds beyond those that a walk needs change nothing. -/
theorem rhoWalk_add_rounds {n c : Nat} (more : Nat) : ∀ {rounds slow fast : Nat},
    rhoWalk n c rounds slow fast ≠ .unfinished →
      rhoWalk n c (rounds + more) slow fast = rhoWalk n c rounds slow fast := by
  intro rounds
  induction rounds with
  | zero => exact fun h => absurd rfl h
  | succ k ih =>
    intro slow fast h
    rw [Nat.succ_add, rhoWalk, rhoWalk]
    rw [rhoWalk] at h
    split
    · rfl
    · next hd =>
      rw [if_neg hd] at h
      split
      · rfl
      · next hd' => exact ih (by rwa [if_neg hd'] at h)

/-- Settles O37: Floyd's pointers meet within `n` rounds, and the walk does not go on after it has ended. -/
theorem rhoWalkEndsWithinN : Obligations.RhoWalkEndsWithinN := by
  unfold Obligations.RhoWalkEndsWithinN
  intro n c x hn
  have hend : rhoWalk n c n x x ≠ .unfinished := rhoWalk_n_ne_unfinished hn
  refine ⟨hend, fun rounds h => ?_⟩
  rw [← Nat.add_sub_cancel' h]
  exact rhoWalk_add_rounds _ hend

/-- Two first rounds whose value is not 1 are the same round. -/
theorem eq_of_first_ne_one {g : Nat → Nat} {i m : Nat} (hi : 1 ≤ i) (hm : 1 ≤ m) (hgi : g i ≠ 1) (hgm : g m ≠ 1)
    (hfi : ∀ j, 1 ≤ j → j < i → g j = 1) (hfm : ∀ j, 1 ≤ j → j < m → g j = 1) : i = m := by
  rcases Nat.lt_trichotomy i m with h | h | h
  · exact absurd (hfm i hi h) hgi
  · exact h
  · exact absurd (hfi m hm h) hgm

/-- Settles O36: the walk ends at its first gcd that is not 1, and there is only one first. -/
theorem rhoWalkIsFloyd : Obligations.RhoWalkIsFloyd := by
  unfold Obligations.RhoWalkIsFloyd
  intro n c x hn f g
  have hg : g = walkGcd n c x := funext fun i => by rw [walkGcd, absDiff_eq_natAbs]; rfl
  rw [hg]
  obtain ⟨m, hm, hmn, hfirst, hend⟩ := rhoWalk_n_cases (c := c) (x := x) (show 1 ≤ n by omega)
  have only (i : Nat) (hi : 1 ≤ i) (hgi : walkGcd n c x i ≠ 1) (hfi : ∀ j, 1 ≤ j → j < i → walkGcd n c x j = 1) :
      walkGcd n c x i = walkGcd n c x m :=
    congrArg _ (eq_of_first_ne_one hi hm hgi (by omega) hfi hfirst)
  rcases hend with ⟨hlow, hhigh, e⟩ | ⟨hgm, e⟩
  · rw [e]
    refine ⟨fun d => ⟨?_, ?_⟩, ⟨nofun, ?_⟩⟩
    · rintro ⟨⟩
      exact ⟨hlow, hhigh, m, hm, hmn, rfl, hfirst⟩
    · rintro ⟨hd, -, i, hi, -, rfl, hfi⟩
      rw [only i hi (by omega) hfi]
    · rintro ⟨i, hi, -, hgi, hfi⟩
      have hsame := only i hi (by omega) hfi
      omega
  · rw [e]
    refine ⟨fun d => ⟨nofun, ?_⟩, ⟨fun _ => ⟨m, hm, hmn, hgm, hfirst⟩, fun _ => rfl⟩⟩
    rintro ⟨hd, hdn, i, hi, -, rfl, hfi⟩
    have hsame := only i hi (by omega) hfi
    omega

/-! ## FACTOR without a walk (43_factor R117) -/

/-- Only a 1-bit register cannot hold 2. -/
theorem width_eq_one_of_not_fits_two {P : Params} (h : P.fits 2 = false) : P.width = some 1 := by
  unfold Params.fits at h
  cases hw : P.width with
  | none => rw [hw] at h; cases h
  | some w =>
    rw [hw] at h
    obtain ⟨k, -, rfl⟩ := Option.map_eq_some_iff.mp hw
    have hpow : 2 ^ (k + 1) ≤ 2 ^ 1 := by simpa using h
    have hk : k + 1 ≤ 1 := (Nat.pow_le_pow_iff_right (by omega)).mp hpow
    rw [show k = 0 by omega]

/-- A clipped 1-bit value is 0 or 1. -/
theorem clip_lt_two {P : Params} (h : P.width = some 1) (v : Nat) : P.clip v < 2 := by
  rw [Params.clip, h]
  exact Nat.mod_lt v (by decide)

/-- Settles O34: the 2 is written if it fits, and otherwise a 1-bit value is drawn (log entry 10). -/
theorem factorOfZero : Obligations.FactorOfZero := by
  unfold Obligations.FactorOfZero
  intro rs1 rd rd2 s hd h0
  rw [exec_eq, effect]
  rcases factorCmd_cases Config.chip rs1 rd rd2 s with
    ⟨h, -⟩ | ⟨-, h1, -⟩ | ⟨-, -, hf, e⟩ | ⟨-, -, hf, e⟩ | ⟨-, hn, -⟩ | ⟨-, hn, -⟩
  · exact absurd h hd
  · omega
  · exact .inl ⟨hf, by rw [e]⟩
  · have hw := width_eq_one_of_not_fits_two hf
    exact .inr ⟨hw, _, clip_lt_two hw _, by rw [e]⟩
  · omega
  · omega

/-- Settles O33: the operand decides which of the command's ends it is. -/
theorem factorWithoutWalk : Obligations.FactorWithoutWalk := by
  unfold Obligations.FactorWithoutWalk
  intro rs1 rd rd2 s hd
  rw [exec_eq, effect]
  rcases factorCmd_cases Config.chip rs1 rd rd2 s with
    ⟨h, -⟩ | ⟨-, h1, e⟩ | ⟨-, h0, -⟩ | ⟨-, h0, -⟩ | ⟨-, hn, -, e⟩ | ⟨-, hn, ho, -⟩
  · exact absurd h hd
  · exact ⟨fun _ => by rw [e], fun h => by omega⟩
  · exact ⟨fun h => by omega, fun h => by omega⟩
  · exact ⟨fun h => by omega, fun h => by omega⟩
  · exact ⟨fun h => by omega, fun _ _ => by rw [e]⟩
  · exact ⟨fun h => by omega, fun _ he => by omega⟩

/-! ## FACTOR of an odd number (43_factor R111, R114) -/

/-- An attempt that draws its seed and its increment and comes to no factor has collapsed: no walk is unfinished. -/
theorem attemptCollapses_iff {n : Nat} (hn : 1 ≤ n) (P : Params) (q : Nat) :
    attemptCollapses P n q ↔ ∃ x c, randRange P 2 (n - 1) q = some x ∧ randRange P 1 (n - 1) (q + 1) = some c ∧
      rhoWalk n c n x x = .collapsed := by
  have walk_iff (x c : Nat) : (∀ d, rhoWalk n c n x x ≠ .found d) ↔ rhoWalk n c n x x = .collapsed := by
    have hend : rhoWalk n c n x x ≠ .unfinished := rhoWalk_n_ne_unfinished hn
    cases hw : rhoWalk n c n x x with
    | found d => simp
    | collapsed => simp
    | unfinished => exact absurd hw hend
  simp only [attemptCollapses, walk_iff]

/-- Settles O35: of the command's ends, those of an odd operand, whose attempts without a factor are collapsed ones. -/
theorem factorSearch : Obligations.FactorSearch := by
  unfold Obligations.FactorSearch
  intro rs1 rd rd2 s
  dsimp only
  intro hd hn ho
  rw [exec_eq, effect]
  rcases factorCmd_cases Config.chip rs1 rd rd2 s with
    ⟨h, -⟩ | ⟨-, h1, -⟩ | ⟨-, h0, -⟩ | ⟨-, h0, -⟩ | ⟨-, -, he, -⟩ | ⟨-, -, -, hends⟩
  · exact absurd h hd
  · omega
  · omega
  · omega
  · omega
  · simp only [attemptCollapses_iff (show 1 ≤ s.getReg rs1 by omega)] at hends
    rcases hends with ⟨hc, e⟩ | ⟨j, hj, hc, ⟨x, c, d, hx, hi, hw, e⟩ | ⟨hx, e⟩ | ⟨x, hx, hi, e⟩⟩
    · exact .inl ⟨hc, by rw [e]⟩
    · exact .inr ⟨j, hj, hc, .inl ⟨x, c, d, hx, hi, hw, by rw [e]⟩⟩
    · exact .inr ⟨j, hj, hc, .inr (.inl ⟨hx, by rw [e]⟩)⟩
    · exact .inr ⟨j, hj, hc, .inr (.inr ⟨x, hx, hi, by rw [e]⟩)⟩

/-- A nontrivial divisor and its cofactor are a nontrivial pair (43_factor R114). -/
theorem nontrivial_pair_of_dvd {n d : Nat} (hd : 1 < d) (hdn : d < n) (hdvd : d ∣ n) :
    d * (n / d) = n ∧ 1 < n / d ∧ n / d < n :=
  ⟨Nat.mul_div_cancel' hdvd, (Nat.lt_div_iff_mul_lt_of_dvd (by omega) hdvd).mpr (by omega),
    Nat.div_lt_self (by omega) hd⟩

/-- Settles O38: of the ends of `factorSearch`, the factor found is a nontrivial divisor. -/
theorem factorResultIsNontrivial : Obligations.FactorResultIsNontrivial := by
  unfold Obligations.FactorResultIsNontrivial
  intro rs1 rd rd2 s hd hn ho
  rcases factorSearch rs1 rd rd2 s hd hn ho with
    ⟨-, e⟩ | ⟨j, hj, -, ⟨x, c, d, -, -, hw, e⟩ | ⟨-, e⟩ | ⟨_, -, -, e⟩⟩
  · exact ⟨_, le_rfl, .inr (.inl e)⟩
  · obtain ⟨hlow, hhigh, hdvd⟩ := rhoWalk_found _ _ _ _ _ _ hw
    obtain ⟨hmul, hlow', hhigh'⟩ := nontrivial_pair_of_dvd hlow hhigh hdvd
    exact ⟨2 * j + 2, by omega, .inl ⟨_, _, hmul, hlow, hhigh, hlow', hhigh', e⟩⟩
  · exact ⟨2 * j + 1, by omega, .inr (.inr e)⟩
  · exact ⟨2 * j + 2, by omega, .inr (.inr e)⟩

/-- Settles O39: a prime is no product of a nontrivial pair, so the other ends of `factorResultIsNontrivial` remain. -/
theorem factorOfOddPrimeFails : Obligations.FactorOfOddPrimeFails := by
  unfold Obligations.FactorOfOddPrimeFails
  intro rs1 rd rd2 s hd hp ho
  have hn : 3 ≤ s.getReg rs1 := by have := hp.two_le; omega
  obtain ⟨k, -, ⟨p, q, hmul, hlow, -, hlow', -, -⟩ | e | e⟩ := factorResultIsNontrivial rs1 rd rd2 s hd hn ho
  · exact absurd (hmul ▸ hp) (Nat.not_prime_mul (by omega) (by omega))
  · exact ⟨_, e, .inl ⟨rfl, rfl⟩⟩
  · exact ⟨_, e, .inr ⟨rfl, rfl⟩⟩

end Sys2Proof.Machine
end

section
/-! PROOF. The errors (60_exceptions). How a command can end is said once, in `CommandEnd`: for each error its cause and
the whole state it leaves. The statements about the errors are read off it. -/

namespace Sys2Proof.Machine

/-! ## No transaction (60_exceptions R153) -/

theorem hostTurn_nil (P : Params) {s : State} (h : s.pending = []) : hostTurn P s = .next s := by
  unfold hostTurn; rw [h]

/-- Settles O17: a turn with an empty script is the idle one. -/
theorem idleHoldsState : Obligations.IdleHoldsState := by
  unfold Obligations.IdleHoldsState
  exact fun s h => hostTurn_nil Config.chip h

/-! ## The first request that fails (20_memory R48) -/

/-- Of the requests from number `first` on, `q` is the first that answered `fail`. -/
def failsFirstAt (P : Params) (first q : Nat) : Prop :=
  first ≤ q ∧ P.entropyAnswer q = none ∧ ∀ r, first ≤ r → r < q → P.entropyAnswer r ≠ none

section

variable {P : Params} {n q j : Nat}

theorem randBits_eq_none_iff {k : Nat} : randBits P k q = none ↔ P.entropyAnswer q = none :=
  Option.map_eq_none_iff

theorem randRange_eq_none_iff {lo hi : Nat} : randRange P lo hi q = none ↔ P.entropyAnswer q = none :=
  Option.map_eq_none_iff

theorem entropyAnswer_ne_none_of_randBits {k v : Nat} (h : randBits P k q = some v) : P.entropyAnswer q ≠ none :=
  mt (randBits_eq_none_iff (k := k)).mpr (by simp [h])

theorem entropyAnswer_ne_none_of_randRange {lo hi v : Nat} (h : randRange P lo hi q = some v) :
    P.entropyAnswer q ≠ none :=
  mt (randRange_eq_none_iff (lo := lo) (hi := hi)).mpr (by simp [h])

/-- A trial that passed got its bits, so the trial that gets none makes the first request that fails. -/
theorem failsFirstAt_of_trialsPass {bits : Nat} (hp : trialsPass P n bits q j) (h : randBits P bits (q + j) = none) :
    failsFirstAt P q (q + j) := by
  refine ⟨by omega, randBits_eq_none_iff.mp h, fun r hr hlt => ?_⟩
  obtain ⟨i, rfl⟩ := Nat.exists_eq_add_of_le hr
  obtain ⟨v, hv, -⟩ := hp i (by omega)
  exact entropyAnswer_ne_none_of_randBits hv

/-- An attempt that collapsed got its seed and its increment. -/
theorem entropyAnswer_ne_none_of_collapses (hc : ∀ i < j, attemptCollapses P n (q + 2 * i)) (r : Nat) (hr : q ≤ r)
    (hlt : r < q + 2 * j) : P.entropyAnswer r ≠ none := by
  obtain ⟨x, c, hx, hi, -⟩ := hc ((r - q) / 2) (by omega)
  rcases (by omega : r = q + 2 * ((r - q) / 2) ∨ r = q + 2 * ((r - q) / 2) + 1) with h | h
  · exact h ▸ entropyAnswer_ne_none_of_randRange hx
  · exact h ▸ entropyAnswer_ne_none_of_randRange hi

theorem failsFirstAt_seed (hc : ∀ i < j, attemptCollapses P n (q + 2 * i)) {lo hi : Nat}
    (h : randRange P lo hi (q + 2 * j) = none) : failsFirstAt P q (q + 2 * j) :=
  ⟨by omega, randRange_eq_none_iff.mp h, entropyAnswer_ne_none_of_collapses hc⟩

theorem failsFirstAt_increment (hc : ∀ i < j, attemptCollapses P n (q + 2 * i)) {lo hi lo' hi' x : Nat}
    (hx : randRange P lo hi (q + 2 * j) = some x) (h : randRange P lo' hi' (q + 2 * j + 1) = none) :
    failsFirstAt P q (q + 2 * j + 1) := by
  refine ⟨by omega, randRange_eq_none_iff.mp h, fun r hr hlt => ?_⟩
  rcases Nat.lt_succ_iff_lt_or_eq.mp hlt with hlt | rfl
  · exact entropyAnswer_ne_none_of_collapses hc r hr hlt
  · exact entropyAnswer_ne_none_of_randRange hx

end

/-! ## How a command ends (60_exceptions R140 to R146) -/

/-- The two cases of OperandRange: a MODEXP, under any of its names, with modulus 0, and a PRIMETEST of 0
(60_exceptions R144). -/
def operandOutOfRange (i : Instr) (s : State) : Prop :=
  (∃ rs1 rs2 rs3 rd, i ∈ [Instr.modexp rs1 rs2 rs3 rd, .encrypt rs1 rs2 rs3 rd, .decrypt rs1 rs2 rs3 rd] ∧
    s.getReg rs3 = 0) ∨
  (∃ rs1 iter sbits, i = .primetest rs1 iter sbits ∧ s.getReg rs1 = 0)

/-- The commands that make entropy requests (20_memory R49). -/
def requestsEntropy (i : Instr) : Prop :=
  (∃ rs1 iter sbits, i = .primetest rs1 iter sbits) ∨ (∃ rs1 rd rd2, i = .factor rs1 rd rd2)

/-- The states in which the command `i`, begun in `s`, can end: completed, or with one of the four errors, which
leaves exactly the state written here. -/
inductive CommandEnd (P : Params) (i : Instr) (s : State) : State → Prop
  | completed {t : State} (he : t.err = 0) : CommandEnd P i s t
  | entropySourceUnavailable {q : Nat} (hi : requestsEntropy i) (hq : failsFirstAt P s.entropyReqs q) :
      CommandEnd P i s { s with err := 1, entropyReqs := q + 1 }
  | invalidModulus {rs1 rd rd2 : RegIdx} (hi : i = .factor rs1 rd rd2) (p q reqs draws : Nat) :
      CommandEnd P i s
        { s with x := (s.x.set rd p).set rd2 q, err := 2, entropyReqs := reqs, freeDraws := draws }
  | illegalCommand : CommandEnd P i s { s with err := 3 }
  | operandRange (hr : operandOutOfRange i s) : CommandEnd P i s { s with err := 4 }

section

variable (P : Params) (s : State)

theorem modexpCmd_end {rs1 rs2 rs3 rd : RegIdx} {i : Instr}
    (hi : i ∈ [Instr.modexp rs1 rs2 rs3 rd, .encrypt rs1 rs2 rs3 rd, .decrypt rs1 rs2 rs3 rd]) :
    CommandEnd P i s (modexpCmd rs1 rs2 rs3 rd s) := by
  rcases modexpCmd_cases rs1 rs2 rs3 rd s with ⟨hm, e⟩ | ⟨-, e⟩
  · exact e ▸ .operandRange (.inl ⟨rs1, rs2, rs3, rd, hi, hm⟩)
  · exact e ▸ .completed rfl

theorem modinvCmd_end (rs1 rs2 rd : RegIdx) : CommandEnd P (.modinv rs1 rs2 rd) s (modinvCmd P rs1 rs2 rd s) := by
  rcases modinvCmd_cases P rs1 rs2 rd s with ⟨-, e⟩ | ⟨-, -, e⟩ | ⟨-, -, e⟩
  · exact e ▸ .completed rfl
  · exact e ▸ .completed rfl
  · exact e ▸ .completed rfl

theorem primetestCmd_end (rs1 : RegIdx) (iter : BitVec 8) (sbits : BitVec 15) :
    CommandEnd P (.primetest rs1 iter sbits) s (primetestCmd P rs1 iter sbits s) := by
  rcases primetestCmd_cases P rs1 iter sbits s with
    ⟨h0, e⟩ | ⟨-, e⟩ | ⟨-, -, e⟩ | ⟨-, j, -, hp, ⟨_, -, -, e⟩ | ⟨hr, e⟩⟩
  · exact e ▸ .operandRange (.inr ⟨rs1, iter, sbits, rfl, h0⟩)
  · exact e ▸ .completed rfl
  · exact e ▸ .completed rfl
  · exact e ▸ .completed rfl
  · exact e ▸ .entropySourceUnavailable (.inl ⟨rs1, iter, sbits, rfl⟩) (failsFirstAt_of_trialsPass hp hr)

theorem factorCmd_end (rs1 rd rd2 : RegIdx) :
    CommandEnd P (.factor rs1 rd rd2) s (factorCmd P rs1 rd rd2 s) := by
  have hreq : requestsEntropy (.factor rs1 rd rd2) := .inr ⟨rs1, rd, rd2, rfl⟩
  rcases factorCmd_cases P rs1 rd rd2 s with
    ⟨-, e⟩ | ⟨-, -, e⟩ | ⟨-, -, -, e⟩ | ⟨-, -, -, e⟩ | ⟨-, -, -, e⟩ |
    ⟨-, -, -, ⟨-, e⟩ | ⟨j, -, hc, ⟨_, _, _, -, -, -, e⟩ | ⟨hx, e⟩ | ⟨_, hx, hi, e⟩⟩⟩
  · exact e ▸ .illegalCommand
  · exact e ▸ .invalidModulus rfl ..
  · exact e ▸ .invalidModulus rfl ..
  · exact e ▸ .invalidModulus rfl ..
  · exact e ▸ .completed rfl
  · exact e ▸ .invalidModulus rfl ..
  · exact e ▸ .completed rfl
  · exact e ▸ .entropySourceUnavailable hreq (failsFirstAt_seed hc hx)
  · exact e ▸ .entropySourceUnavailable hreq (failsFirstAt_increment hc hx hi)

/-- Every instruction ends in one of the ways of `CommandEnd`. -/
theorem effect_end (i : Instr) : CommandEnd P i s (effect P i s) := by
  cases i with
  | modexp rs1 rs2 rs3 rd => exact modexpCmd_end P s (by simp)
  | modinv rs1 rs2 rd => exact modinvCmd_end P s rs1 rs2 rd
  | gcd rs1 rs2 rd => exact .completed rfl
  | primetest rs1 iter sbits => exact primetestCmd_end P s rs1 iter sbits
  | factor rs1 rd rd2 => exact factorCmd_end P s rs1 rd rd2
  | encrypt rs1 rs2 rs3 rd => exact modexpCmd_end P s (by simp)
  | decrypt rs1 rs2 rs3 rd => exact modexpCmd_end P s (by simp)

end

/-! ## What each error code says of the end -/

section

variable {P : Params} {i : Instr} {s t : State}

/-- Only a failed request ends in EntropySourceUnavailable. -/
theorem CommandEnd.of_err_one (h : CommandEnd P i s t) (he : t.err = 1) :
    requestsEntropy i ∧ ∃ q, failsFirstAt P s.entropyReqs q ∧ t = { s with err := 1, entropyReqs := q + 1 } := by
  cases h with
  | completed h0 => simp [h0] at he
  | entropySourceUnavailable hi hq => exact ⟨hi, _, hq, rfl⟩
  | invalidModulus => simp at he
  | illegalCommand => simp at he
  | operandRange => simp at he

/-- Only FACTOR ends in InvalidModulus. -/
theorem CommandEnd.of_err_two (h : CommandEnd P i s t) (he : t.err = 2) :
    ∃ rs1 rd rd2 p q, i = .factor rs1 rd rd2 ∧
      t = { s with
        x := (s.x.set rd p).set rd2 q
        err := 2
        entropyReqs := t.entropyReqs
        freeDraws := t.freeDraws } := by
  cases h with
  | completed h0 => simp [h0] at he
  | entropySourceUnavailable => simp at he
  | invalidModulus hi p q => exact ⟨_, _, _, p, q, hi, rfl⟩
  | illegalCommand => simp at he
  | operandRange => simp at he

/-- Only an operand out of range ends in OperandRange. -/
theorem CommandEnd.of_err_four (h : CommandEnd P i s t) (he : t.err = 4) :
    operandOutOfRange i s ∧ t = { s with err := 4 } := by
  cases h with
  | completed h0 => simp [h0] at he
  | entropySourceUnavailable => simp at he
  | invalidModulus => simp at he
  | illegalCommand => simp at he
  | operandRange hr => exact ⟨hr, rfl⟩

/-- An error that comes without a result pair changes `ERR` alone; the count of requests is the model's. -/
theorem CommandEnd.frame (h : CommandEnd P i s t) (h0 : t.err ≠ 0) (h2 : t.err ≠ 2) :
    t = { s with err := t.err, entropyReqs := t.entropyReqs } := by
  cases h with
  | completed he => exact absurd he h0
  | entropySourceUnavailable => rfl
  | invalidModulus => exact absurd rfl h2
  | illegalCommand => rfl
  | operandRange => rfl

end

/-- Settles O43: the states that the ends with an error leave; an illegal word raises IllegalCommand. -/
theorem errorsArePrecise : Obligations.ErrorsArePrecise := by
  unfold Obligations.ErrorsArePrecise
  refine ⟨fun P i s t ht => ?_, fun w e s hd => hostIssue_of_decode_error hd s⟩
  have hend : CommandEnd P i s t := ht ▸ effect_end P s i
  refine ⟨fun he => ?_, hend.of_err_two⟩
  have hne : t.err ≠ 0 ∧ t.err ≠ 2 := by rcases he with he | he | he <;> simp [he]
  exact hend.frame hne.1 hne.2

/-- Settles O45: the end with this error is at the first request that failed, and no other follows it. -/
theorem entropyErrorIsAFailedRequest : Obligations.EntropyErrorIsAFailedRequest := by
  unfold Obligations.EntropyErrorIsAFailedRequest
  intro P i s t ht he
  have hend : CommandEnd P i s t := ht ▸ effect_end P s i
  obtain ⟨hi, q, ⟨hq, hfail, hfirst⟩, rfl⟩ := hend.of_err_one he
  exact ⟨hi, Nat.lt_succ_of_le hq, hfail, fun r hr hlt => hfirst r hr (Nat.lt_of_succ_lt_succ hlt)⟩

/-! ## OperandRange (60_exceptions R144) -/

/-- An operand out of range ends the command in OperandRange (40_modexp R81, 42_primetest R101). -/
theorem exec_of_operandOutOfRange {i : Instr} {s : State} (h : operandOutOfRange i s) :
    exec i s = .next { s with err := 4 } := by
  rcases h with ⟨rs1, rs2, rs3, rd, hi, h0⟩ | ⟨rs1, iter, sbits, rfl, h0⟩
  · exact (modexpResult rs1 rs2 rs3 rd s i hi).2 h0
  · exact (primetestResult rs1 iter sbits s).1 h0

/-- Settles O44: only an operand out of range ends in this error, and it always does. -/
theorem operandRangeExactlyWhen : Obligations.OperandRangeExactlyWhen := by
  unfold Obligations.OperandRangeExactlyWhen
  intro i s t ht
  have hend : CommandEnd Config.chip i s t := exec_next ht ▸ effect_end Config.chip s i
  refine ⟨⟨fun he => (hend.of_err_four he).1, fun hr => ?_⟩, fun he => (hend.of_err_four he).2⟩
  cases ht.symm.trans (exec_of_operandOutOfRange hr)
  rfl

/-! ## InvalidModulus (60_exceptions R142; 43_factor R111) -/

section

variable {P : Params} {n q : Nat}

theorem not_attemptCollapses_of_found {x c d : Nat} (hx : randRange P 2 (n - 1) q = some x)
    (hi : randRange P 1 (n - 1) (q + 1) = some c) (hw : rhoWalk n c n x x = .found d) : ¬ attemptCollapses P n q := by
  rintro ⟨x', c', hx', hi', hw'⟩
  cases hx.symm.trans hx'
  cases hi.symm.trans hi'
  exact hw' d hw

theorem not_attemptCollapses_of_noSeed (hx : randRange P 2 (n - 1) q = none) : ¬ attemptCollapses P n q := by
  rintro ⟨x', c', hx', -⟩
  cases hx.symm.trans hx'

theorem not_attemptCollapses_of_noIncrement (hi : randRange P 1 (n - 1) (q + 1) = none) :
    ¬ attemptCollapses P n q := by
  rintro ⟨x', c', -, hi', -⟩
  cases hi.symm.trans hi'

end

/-- The three cases of InvalidModulus for an operand `n`, the first request being number `q` (60_exceptions R142). -/
def factorFails (P : Params) (n q : Nat) : Prop :=
  n = 0 ∨ n = 1 ∨ (3 ≤ n ∧ n % 2 = 1 ∧ ∀ j < P.rhoMaxAttempts, attemptCollapses P n (q + 2 * j))

/-- One attempt that does not collapse is enough for a FACTOR of 3 or more not to fail. -/
theorem not_factorFails_of_not_collapses {P : Params} {n q j : Nat} (hn : 3 ≤ n) (hj : j < P.rhoMaxAttempts)
    (h : ¬ attemptCollapses P n (q + 2 * j)) : ¬ factorFails P n q := by
  rintro (h0 | h1 | ⟨-, -, hc⟩)
  · omega
  · omega
  · exact h (hc j hj)

/-- FACTOR ends in InvalidModulus exactly if its destinations are two and it fails. -/
theorem factorCmd_err_eq_two_iff (P : Params) (rs1 rd rd2 : RegIdx) (s : State) :
    (factorCmd P rs1 rd rd2 s).err = 2 ↔ rd ≠ rd2 ∧ factorFails P (s.getReg rs1) s.entropyReqs := by
  rcases factorCmd_cases P rs1 rd rd2 s with
    ⟨hd, e⟩ | ⟨hd, h1, e⟩ | ⟨hd, h0, -, e⟩ | ⟨hd, h0, -, e⟩ | ⟨-, hn, he, e⟩ |
    ⟨hd, hn, ho, ⟨hc, e⟩ | ⟨j, hj, -, ⟨x, c, d, hx, hi, hw, e⟩ | ⟨hx, e⟩ | ⟨x, -, hi, e⟩⟩⟩
  · exact iff_of_false (by simp [e]) fun h => h.1 hd
  · exact iff_of_true (by rw [e]) ⟨hd, .inr (.inl h1)⟩
  · exact iff_of_true (by rw [e]) ⟨hd, .inl h0⟩
  · exact iff_of_true (by rw [e]) ⟨hd, .inl h0⟩
  · refine iff_of_false (by simp [e]) ?_
    rintro ⟨-, h0 | h1 | ⟨-, ho, -⟩⟩ <;> omega
  · exact iff_of_true (by rw [e]) ⟨hd, .inr (.inr ⟨hn, ho, hc⟩)⟩
  · have hc := not_attemptCollapses_of_found hx hi hw
    exact iff_of_false (by simp [e]) fun h => not_factorFails_of_not_collapses hn hj hc h.2
  · have hc := not_attemptCollapses_of_noSeed hx
    exact iff_of_false (by simp [e]) fun h => not_factorFails_of_not_collapses hn hj hc h.2
  · have hc := not_attemptCollapses_of_noIncrement hi
    exact iff_of_false (by simp [e]) fun h => not_factorFails_of_not_collapses hn hj hc h.2

/-- A failure, with R112's way for an attempt to collapse: no walk is unfinished. -/
theorem factorFails_iff (P : Params) (n q : Nat) :
    factorFails P n q ↔ n = 0 ∨ n = 1 ∨ (3 ≤ n ∧ n % 2 = 1 ∧ ∀ j < P.rhoMaxAttempts,
      ∃ x c, randRange P 2 (n - 1) (q + 2 * j) = some x ∧ randRange P 1 (n - 1) (q + 2 * j + 1) = some c ∧
        rhoWalk n c n x x = .collapsed) :=
  or_congr_right <| or_congr_right <| and_congr_right fun hn => and_congr_right fun _ =>
    forall₂_congr fun _ _ => attemptCollapses_iff (Nat.one_le_of_lt hn) P _

/-- Settles O46: only FACTOR ends in this error, and it does if and only if it fails. -/
theorem invalidModulusExactlyWhen : Obligations.InvalidModulusExactlyWhen := by
  unfold Obligations.InvalidModulusExactlyWhen
  intro P i s t ht
  have hfactor (rs1 rd rd2 : RegIdx) (hi : i = .factor rs1 rd rd2) :
      t.err = 2 ↔ rd ≠ rd2 ∧ factorFails P (s.getReg rs1) s.entropyReqs := by
    rw [ht, hi]
    exact factorCmd_err_eq_two_iff P rs1 rd rd2 s
  simp only [← factorFails_iff]
  constructor
  · intro he
    have hend : CommandEnd P i s t := ht ▸ effect_end P s i
    obtain ⟨rs1, rd, rd2, -, -, hi, -⟩ := hend.of_err_two he
    exact ⟨rs1, rd, rd2, hi, (hfactor rs1 rd rd2 hi).mp he⟩
  · rintro ⟨rs1, rd, rd2, hi, hfail⟩
    exact (hfactor rs1 rd rd2 hi).mpr hfail

end Sys2Proof.Machine
end

section
/-! PROOF. The reset transaction (70_reset R160). The values the registers take are those of `hostReset`, which ends in
a legal state. -/

namespace Sys2Proof.Machine

/-- Settles O15: the eight values are the registers `hostReset` leaves, and they fit because its state is legal. -/
theorem resetTransaction : Obligations.ResetTransaction := by
  unfold Obligations.ResetTransaction
  intro s rest hp
  obtain ⟨hfit, -⟩ := hostReset_legal Config.chip { s with pending := rest }
  refine ⟨(hostReset Config.chip { s with pending := rest }).x, hfit, ?_⟩
  rw [step_cons hp]
  rfl

end Sys2Proof.Machine
end
